-- ==== Sys2Proof/Word.lean ====
section
/-! DEFINITION. The words of the hardware: bytes, the command word, indices and the index field (R23, R50). -/

namespace Sys2Proof

/-- A byte: the unit of both address spaces (R30). -/
abbrev Byte := BitVec 8

/-- The 16-bit command word `CMD` (R50). -/
abbrev CmdWord := BitVec 16

/-- A 3-bit palette index, the width of the quantizer's and packer's ports (R23). -/
abbrev Index := BitVec 3

/-- The 48-bit index field, `field[47:0]` of the packer's ports (R23, R81). -/
abbrev IndexField := BitVec 48

end Sys2Proof
end

