-- ==== Sys2Proof/Config.lean ====
section
/-! DEFINITION. What an instance fixes: the one open parameter of the spec, `BLUE_OVF`
(R5, R114, D15). Every other parameter of R5 is a constant that the types and functions of the model hold. -/

namespace Sys2Proof

/-- `BLUE_OVF` (R5, R114): the blue byte for a ComputeNormalZ value `b9` of 256 to 307.
The spec leaves it open and lets it vary between instances, so it is a free value: a constant with no body,
applied to the State field that says which instance this is (log entry 4). DESIGN CHOICE of the form only; safe:
nothing can be proved of its value. -/
opaque Config.blueOvf (blueSel : Nat) (b9 : Nat) : Byte

end Sys2Proof
end

