-- ==== Sys2Proof/Machine/State.lean ====
section
/-! DEFINITION. The state of one core (R10 to R22), its reset, and the reasons a step or a host read can stop. -/

namespace Sys2Proof.Machine

/-- `STATUS` (R14). Its only storage is the field `ERR`, bits [2:0]; the reserved bits [7:3] read as 0 and are
never written, so they are wired in `Status.word`, the one reader of the register (log entry 6). -/
structure Status where
  /-- `STATUS.ERR`: the outcome of the last command (R14, R120). -/
  err : BitVec 3
  deriving DecidableEq, Repr

/-- Everything the spec gives one core, and two fields of the model's own. Plain data. -/
structure State where
  /-- `OUT[0 .. 63]`, the result buffer (R12): the bytes that hold a value, at strictly rising offsets below 64.
  An offset that is not listed holds no value (R15). -/
  out : List Host.Cell
  /-- `OUTLEN`, 7 bits: the number of valid bytes in `OUT` (R13). -/
  outLen : BitVec 7
  /-- `STATUS` (R14). -/
  status : Status
  /-- The model's own: the bytes the host has delivered and the core has not consumed, in stream order. The
  position in the stream is the host's quantity (R16, R59; log entry 1). -/
  stream : List Byte
  /-- The model's own: which `BLUE_OVF` this instance was built with (R5, R114; log entry 4). -/
  blueSel : Nat
  deriving DecidableEq, Repr

/-- After reset `OUT` holds no value, `OUTLEN = 0` and `STATUS = 0x00` (R20, R21, R22, R140). Nothing is delivered
yet (log entry 2); `blueSel` is 0, a DESIGN CHOICE on which no statement rests (log entry 4). -/
def State.reset : State where
  out := []
  outLen := 0
  status := { err := 0 }
  stream := []
  blueSel := 0

/-- Why the machine stops. The errors of the hardware are no stops: they complete the command (R127). -/
inductive Fault where
  /-- Raised by `step` when the bytes delivered do not make a whole frame: the command has not been issued, the
  core takes no step and waits, and no error is raised (R149, U8 'stuck'). Safe: the model allows no step. -/
  | awaitingFrame
  deriving DecidableEq, Repr

/-- Why an action has no meaning. -/
inductive Refusal where
  /-- The form the host asks for in an arm of `exec` whose instruction has no meaning yet. Raised by none. Safe. -/
  | notModelled (mnemonic : String)
  /-- Raised by `hostReadOut` for a byte of `OUT` that holds no value (R15, U3). Safe: no number is given. -/
  | outHoldsNoValue
  /-- Raised by `hostReadOut` for an offset that is no byte of `OUT[0 .. 63]` (R30). Safe. -/
  | noSuchOutByte
  /-- Raised by `hostReadErr` for an `ERR` code of 4 to 7, which is never produced (R14, R120, U5). Safe. -/
  | unassignedErrCode
  deriving DecidableEq, Repr

end Sys2Proof.Machine
end

