-- ==== Sys2Proof/Machine/Flags.lean ====
section
/-! DEFINITION. The one status field there is: `STATUS.ERR`, its codes, and the register as software reads it
(R14, R120). No command sets a carry, zero, sign or overflow flag (R14). -/

namespace Sys2Proof.Machine

/-- The errors a command can raise (R120). `OK` is the absence of one. -/
inductive Err where
  /-- `LEN` differs from the command's required length (R121). -/
  | invalidLength
  /-- The command word is reserved or malformed (R122). -/
  | illegalCommand
  /-- A byte of PACK's index vector is above 7 (R123). -/
  | indexRange
  deriving DecidableEq, Repr

/-- The code `ERR` holds after an error (R120). -/
def Err.code : Err → BitVec 3
  | .invalidLength => 1
  | .illegalCommand => 2
  | .indexRange => 3

/-- The code `ERR` holds after success: `OK` (R120). -/
def okCode : BitVec 3 := 0

/-- `STATUS` as the host reads it: the reserved bits [7:3] are 0, `ERR` is in [2:0] (R14). -/
def Status.word (st : Status) : BitVec 8 := (0 : BitVec 5) ++ st.err

/-- What an `ERR` code means: no error, or one of the three; the codes 4 to 7 have no meaning (R120, U5). -/
def errOfCode (c : BitVec 3) : Except Refusal (Option Err) :=
  if c = 0 then .ok none
  else if c = 1 then .ok (some .invalidLength)
  else if c = 2 then .ok (some .illegalCommand)
  else if c = 3 then .ok (some .indexRange)
  else .error .unassignedErrCode

end Sys2Proof.Machine
end

