-- ==== Sys2Proof/Machine/Ops.lean ====
section
/-! DEFINITION. The operations over the result buffer, and how a command ends: with a result (R32) or by error
completion, the counterpart of taking an exception (R127). There is no return from one: `ERR` is not sticky and no
error state exists to leave (R129). -/

namespace Sys2Proof.Machine

/-- The number of bytes of `OUT` (R5 `OUT_BYTES`, R12). -/
def outBytes : Nat := 64

/-- Byte `a` of the result buffer, or nothing if it holds no value (R15). -/
def outRead : List Host.Cell → Nat → Option Byte
  | [], _ => none
  | (k, b) :: rest, a => if k = a then some b else outRead rest a

/-- The bytes `bs` at the offsets from `a` up, as cells. -/
def outCellsFrom : Nat → List Byte → List Host.Cell
  | _, [] => []
  | a, b :: bs => (a, b) :: outCellsFrom (a + 1) bs

/-- The result buffer after a command with result `bs`: `OUT[i] <- bs[i]`, and every byte from `bs.length` on
holds no value (R15, R32, R145). A result replaces the whole buffer, so this is the only write there is (R36). -/
def outOfResult (bs : List Byte) : List Host.Cell := outCellsFrom 0 bs

/-- The result buffer in which no byte holds a value (R15, R20, R127). -/
def outNone : List Host.Cell := []

/-- The offsets rise strictly from `a` and stay below `outBytes`. -/
def outWfFrom : Nat → List Host.Cell → Bool
  | _, [] => true
  | a, (k, _) :: rest => decide (a ≤ k) && decide (k < outBytes) && outWfFrom (k + 1) rest

/-- The canonical form of the result buffer: strictly rising offsets, all of them bytes of `OUT[0 .. 63]`. No entry
can equal what an unlisted offset reads as, since that is no value at all. -/
def outWf (m : List Host.Cell) : Bool := outWfFrom 0 m

/-- A command succeeds with a result of `m` bytes: `OUT`, `OUTLEN` and `ERR` change in one update (R32). -/
def resultComplete {m : Nat} (r : Vector Byte m) (s : State) : State :=
  { s with out := outOfResult r.toList, outLen := BitVec.ofNat 7 m, status := { err := okCode } }

/-- Error completion (R127), the one operation by which every error is taken: `ERR <- code`, `OUTLEN <- 0`, every
byte of `OUT` comes to hold no value, nothing else changes. -/
def raiseError (e : Err) (s : State) : State :=
  { s with out := outNone, outLen := 0, status := { err := e.code } }

/-- The bytes of the host's stream from the next frame on (R59). -/
def consumeFrame (rest : List Byte) (s : State) : State := { s with stream := rest }

end Sys2Proof.Machine
end

