-- ==== Sys2Proof/Machine/Operands.lean ====
section
/-! DEFINITION. The operand of a command: its payload (R30, R31, R50), the length check that guards it (R53, R121),
and the layouts of what crosses the interface (R37 to R43). -/

namespace Sys2Proof.Machine

/-- The payload after the length check: `n` bytes, or nothing if `LEN ≠ n` (R53, R121). A command reads no payload
byte before this check has passed (R31, R126). -/
def checkedPayload (n : Nat) (p : List Byte) : Option (Vector Byte n) :=
  if h : p.length = n then some ⟨p.toArray, by simp [h]⟩ else none

/-- Run a command whose required length is `n` on its payload (R126): InvalidLength if the length is wrong, else
what `f` answers, which is a result of `m` bytes or an error found in the payload. -/
def runCommand {n m : Nat} (f : Vector Byte n → Except Err (Vector Byte m)) (p : List Byte) (s : State) :
    Host.Outcome State Fault Refusal :=
  match checkedPayload n p with
  | none => .next (raiseError .invalidLength s)
  | some x =>
    match f x with
    | .error e => .next (raiseError e s)
    | .ok r => .next (resultComplete r s)

/-- The bits [15:8] of a 16-bit big-endian number, its byte at the lower offset (R7 `MemWrite`, R33). -/
def hiByte (v : Nat) : Byte := (BitVec.ofNat 16 v).extractLsb' 8 8

/-- The bits [7:0] of a 16-bit big-endian number, its byte at the higher offset (R7 `MemWrite`, R33). -/
def loByte (v : Nat) : Byte := (BitVec.ofNat 16 v).extractLsb' 0 8

/-- Eight numbers as sixteen bytes, each `zext_16` and big-endian (R43: `MemWrite(2*k, 2, v[k])`). -/
def bigEndian16 (v : Vector Nat 8) : Vector Byte 16 :=
  Vector.ofFn fun j : Fin 16 => if j.val % 2 = 0 then hiByte v[j.val / 2] else loByte v[j.val / 2]

/-- An index vector: byte `i` holds index `i` in [2:0], bits [7:3] are zero (R41). -/
def indexVectorBytes (idx : Vector Index 16) : Vector Byte 16 :=
  Vector.ofFn fun i : Fin 16 => idx[i].setWidth 8

/-- Whether every byte of a PACK payload has bits [7:3] zero (R84). -/
def indicesInRange (x : Vector Byte 16) : Bool := x.toList.all fun b => b.extractLsb' 3 5 == 0

/-- The indices of an index vector: bits [2:0] of each byte (R41, R82). -/
def indexVectorOf (x : Vector Byte 16) : Vector Index 16 :=
  Vector.ofFn fun i : Fin 16 => x[i].extractLsb' 0 3

/-- A pixel: red, green, blue and alpha (R38). -/
structure Pixel where
  r : Byte
  g : Byte
  b : Byte
  a : Byte
  deriving DecidableEq, Repr

/-- Byte `c` of a pixel on the payload, in the order red, green, blue, alpha (R38). -/
def Pixel.byte (px : Pixel) (c : Nat) : Byte :=
  if c = 0 then px.r else if c = 1 then px.g else if c = 2 then px.b else px.a

/-- A pixel block: pixel `i` at offsets `4*i` to `4*i + 3` (R38). -/
def pixelBlockBytes (px : Vector Pixel 16) : Vector Byte 64 :=
  Vector.ofFn fun j : Fin 64 => px[j.val / 4].byte (j.val % 4)

/-- The sixteen samples of channel `c` (0 red, 1 green) of a pixel block, in scan order (R38, R101). -/
def channelSamples (c : Fin 2) (x : Vector Byte 64) : Vector Byte 16 :=
  Vector.ofFn fun i : Fin 16 => x[4 * i.val + c.val]

end Sys2Proof.Machine
end

