-- ==== Sys2Proof/Machine/Packer.lean ====
section
/-! DEFINITION. The unit `bc5_index_packer_48bit` (R80 to R88) and the commands PACK (R82) and UNPACK (R85). -/

namespace Sys2Proof.Machine

/-- The pack direction, pure wiring: index `i` at field bits `[3*i+2 : 3*i]`, so index 15 is on top (R81, R83). -/
def packField (idx : Vector Index 16) : IndexField :=
  idx[15] ++ idx[14] ++ idx[13] ++ idx[12] ++ idx[11] ++ idx[10] ++ idx[9] ++ idx[8] ++
  idx[7] ++ idx[6] ++ idx[5] ++ idx[4] ++ idx[3] ++ idx[2] ++ idx[1] ++ idx[0]

/-- The six bytes of a field, big-endian: byte `j` is `V[47-8*j : 40-8*j]` (R40, R83). -/
def fieldBytes (v : IndexField) : Vector Byte 6 := Vector.ofFn fun j : Fin 6 => v.extractLsb' (40 - 8 * j.val) 8

/-- The field of six bytes, `b[0]` most significant (R40, R86). -/
def fieldOfBytes (b : Vector Byte 6) : IndexField := b[0] ++ b[1] ++ b[2] ++ b[3] ++ b[4] ++ b[5]

/-- The unpack direction: index `i` is `V[3*i+2 : 3*i]` (R81, R86). -/
def unpackField (v : IndexField) : Vector Index 16 := Vector.ofFn fun i : Fin 16 => v.extractLsb' (3 * i.val) 3

/-- `PACK48` (R83). -/
def pack48 (idx : Vector Index 16) : Vector Byte 6 := fieldBytes (packField idx)

/-- `UNPACK48` (R86). -/
def unpack48 (b : Vector Byte 6) : Vector Index 16 := unpackField (fieldOfBytes b)

/-- The result of PACK: IndexRange if a payload byte is above 7 (R84), else the six bytes of the field (R82). -/
def packResult (x : Vector Byte 16) : Except Err (Vector Byte 6) :=
  if indicesInRange x then .ok (pack48 (indexVectorOf x)) else .error .indexRange

/-- The result of UNPACK: the index vector of the field (R85). No payload value is an error. -/
def unpackResult (x : Vector Byte 6) : Except Err (Vector Byte 16) := .ok (indexVectorBytes (unpack48 x))

/-- PACK (R82). -/
def execPack (payload : List Byte) (s : State) : Host.Outcome State Fault Refusal :=
  runCommand packResult payload s

/-- UNPACK (R85). -/
def execUnpack (payload : List Byte) (s : State) : Host.Outcome State Fault Refusal :=
  runCommand unpackResult payload s

end Sys2Proof.Machine
end

