-- ==== Sys2Proof/Machine/Palette.lean ====
section
/-! DEFINITION. The unit `bc5_palette_interpolator` (R70 to R79) and the command PALGEN (R71). -/

namespace Sys2Proof.Machine

/-- What the interpolator gives (R72): the branch taken, the denominator, the eight scaled numerators and the
eight denormalised bytes. The normalised value of entry `k` is `paln[k] / (255 * den)`. -/
structure Palette where
  deg : Bool
  den : Nat
  paln : Vector Nat 8
  palb : Vector Byte 8
  deriving DecidableEq, Repr

/-- The scaled numerators of the standard branch, over 7 (R73). -/
def standardNumerators (e0 e1 : Nat) : Vector Nat 8 :=
  #v[7 * e0, 7 * e1, 6 * e0 + 1 * e1, 5 * e0 + 2 * e1, 4 * e0 + 3 * e1, 3 * e0 + 4 * e1, 2 * e0 + 5 * e1,
    1 * e0 + 6 * e1]

/-- The scaled numerators of the degenerate branch, over 5: entries 6 and 7 are the sentinels 0 and 1 (R74). -/
def degenerateNumerators (e0 e1 : Nat) : Vector Nat 8 :=
  #v[5 * e0, 5 * e1, 4 * e0 + 1 * e1, 3 * e0 + 2 * e1, 2 * e0 + 3 * e1, 1 * e0 + 4 * e1, 0, 1275]

/-- The denormalised byte of a numerator, `floor(paln / den)` (R75). -/
def denormByte (den paln : Nat) : Byte := BitVec.ofNat 8 (paln / den)

/-- A palette from its branch, denominator and numerators. -/
def paletteOf (deg : Bool) (den : Nat) (paln : Vector Nat 8) : Palette where
  deg := deg
  den := den
  paln := paln
  palb := Vector.ofFn fun k : Fin 8 => denormByte den paln[k]

/-- `PAL(e0, e1)` (R72): the branch is chosen by comparing the two bytes as unsigned numbers; equal endpoints take
the degenerate branch. -/
def pal (e0 e1 : Byte) : Palette :=
  if e0.toNat > e1.toNat then paletteOf false 7 (standardNumerators e0.toNat e1.toNat)
  else paletteOf true 5 (degenerateNumerators e0.toNat e1.toNat)

/-- The numerator an index selects. -/
def Palette.numerator (p : Palette) (k : Index) : Nat := p.paln[k.toFin]

/-- The denormalised byte an index selects (R110). -/
def Palette.byte (p : Palette) (k : Index) : Byte := p.palb[k.toFin]

/-- `DEG` as the first byte of the palette record (R43). -/
def degByte (deg : Bool) : Byte := if deg then 1 else 0

/-- The palette record, 25 bytes: `DEG`, the eight numerators as 16-bit big-endian numbers, the eight bytes (R43). -/
def paletteRecord (p : Palette) : Vector Byte 25 :=
  Vector.ofFn fun j : Fin 25 =>
    if j.val = 0 then degByte p.deg
    else if h : j.val < 17 then (bigEndian16 p.paln)[j.val - 1]
    else p.palb[j.val - 17]

/-- The result of PALGEN for the endpoint pair `IN[0]`, `IN[1]` (R42, R71). No payload value is an error. -/
def palgenResult (x : Vector Byte 2) : Except Err (Vector Byte 25) := .ok (paletteRecord (pal x[0] x[1]))

/-- PALGEN (R71). -/
def execPalgen (payload : List Byte) (s : State) : Host.Outcome State Fault Refusal :=
  runCommand palgenResult payload s

end Sys2Proof.Machine
end

