-- ==== Sys2Proof/Machine/Quantizer.lean ====
section
/-! DEFINITION. The unit `bc5_quantizer` (R90 to R96) and the command QUANT (R91). -/

namespace Sys2Proof.Machine

/-- The distance `|a - b|` over the integers (R92). -/
def distance (a b : Nat) : Nat := ((a : Int) - (b : Int)).natAbs

/-- The index with the best distance so far, as the loop of R92 carries it. -/
structure Best where
  idx : Index
  dist : Nat
  deriving DecidableEq, Repr

/-- One turn of the loop of R92: strict, so an equal distance does not replace. -/
def Best.consider (s : Nat) (p : Palette) (best : Best) (k : Index) : Best :=
  let d := distance s (p.numerator k)
  if d < best.dist then { idx := k, dist := d } else best

/-- `NEAREST(DEN, PALN, p)` (R92): the lowest index among the palette entries nearest to the sample. -/
def nearest (p : Palette) (sample : Byte) : Index :=
  let s := p.den * sample.toNat
  (([1, 2, 3, 4, 5, 6, 7] : List Index).foldl (Best.consider s p) { idx := 0, dist := distance s (p.numerator 0) }).idx

/-- The sixteen lanes (R90, R94). -/
def quantize (p : Palette) (px : Vector Byte 16) : Vector Index 16 :=
  Vector.ofFn fun i : Fin 16 => nearest p px[i]

/-- The sixteen samples of a QUANT payload, `IN[2 + i]` (R42). -/
def quantSamples (x : Vector Byte 18) : Vector Byte 16 := Vector.ofFn fun i : Fin 16 => x[2 + i.val]

/-- The result of QUANT: endpoints `IN[0]`, `IN[1]` as given, samples `IN[2 + i]` (R42, R91, R97). -/
def quantResult (x : Vector Byte 18) : Except Err (Vector Byte 16) :=
  .ok (indexVectorBytes (quantize (pal x[0] x[1]) (quantSamples x)))

/-- QUANT (R91). -/
def execQuant (payload : List Byte) (s : State) : Host.Outcome State Fault Refusal :=
  runCommand quantResult payload s

end Sys2Proof.Machine
end

