-- ==== Sys2Proof/Syntax.lean ====
section
/-! DEFINITION. The command set: one constructor per row of the opcode table (R55). -/

namespace Sys2Proof

/-- The four blue modes of DECOMPRESS (R54). -/
inductive BlueMode where
  | alwaysZero
  | alwaysOne
  | computeNormalZ
  | copyRed
  deriving DecidableEq, Repr

/-- A legal command with its payload. `LEN` is the length of the payload list: the frame carries exactly
`LEN` bytes by construction (R50, R149). A reserved command word is no row of the table and no constructor:
the decoder names it and the step completes it with IllegalCommand (log entry 5). -/
inductive Instr where
  | palgen (payload : List Byte)
  | pack (payload : List Byte)
  | unpack (payload : List Byte)
  | quant (payload : List Byte)
  | compress (payload : List Byte)
  | decompressZ (payload : List Byte)
  | decompressO (payload : List Byte)
  | decompressN (payload : List Byte)
  | decompressR (payload : List Byte)
  deriving DecidableEq, Repr

/-- The payload bytes `IN[0 .. LEN-1]` of a command (R50). -/
def Instr.payload : Instr → List Byte
  | .palgen p => p
  | .pack p => p
  | .unpack p => p
  | .quant p => p
  | .compress p => p
  | .decompressZ p => p
  | .decompressO p => p
  | .decompressN p => p
  | .decompressR p => p

end Sys2Proof
end

