-- ==== Sys2Proof/Machine/Codec.lean ====
section
/-! DEFINITION. The unit `bc5_block_codec` (R100): the commands COMPRESS (R101) and DECOMPRESS with its four blue
modes (R107). -/

namespace Sys2Proof.Machine

/-- The smaller of two bytes as unsigned numbers. -/
def minByte (a b : Byte) : Byte := if b.toNat < a.toNat then b else a

/-- The larger of two bytes as unsigned numbers. -/
def maxByte (a b : Byte) : Byte := if a.toNat < b.toNat then b else a

/-- `MINMAX(s).lo` (R102). -/
def lowest (s : Vector Byte 16) : Byte := s.toList.foldl minByte s[0]

/-- `MINMAX(s).hi` (R102). -/
def highest (s : Vector Byte 16) : Byte := s.toList.foldl maxByte s[0]

/-- One channel of COMPRESS (R101, R103 to R105): the palette of (min, max), the two reference bytes
`PALB[0]`, `PALB[1]`, and the packed indices of the samples. -/
def compressChannel (s : Vector Byte 16) : Vector Byte 8 :=
  let p := pal (lowest s) (highest s)
  let f := pack48 (quantize p s)
  Vector.ofFn fun j : Fin 8 => if h : j.val < 2 then p.palb[j.val] else f[j.val - 2]

/-- An EncodedBlock: red channel at offsets 0 to 7, green channel at 8 to 15 (R39). -/
def encodedBlock (red green : Vector Byte 8) : Vector Byte 16 :=
  Vector.ofFn fun j : Fin 16 => if h : j.val < 8 then red[j.val] else green[j.val - 8]

/-- The result of COMPRESS: the EncodedBlock of the two channels (R101). Blue and alpha of the
payload are not read (R38). -/
def compressResult (x : Vector Byte 64) : Except Err (Vector Byte 16) :=
  .ok (encodedBlock (compressChannel (channelSamples 0 x)) (compressChannel (channelSamples 1 x)))

/-- The bits of the root below bit `k` added to `acc`, highest first, keeping the square at most `n`. -/
def isqrtFrom (n : Nat) : Nat → Nat → Nat
  | 0, acc => acc
  | k + 1, acc =>
    let t := acc + 2 ^ k
    if t * t ≤ n then isqrtFrom n k t else isqrtFrom n k acc

/-- `isqrt(n)`: the largest `t` with `t * t ≤ n` (R7). -/
def isqrt (n : Nat) : Nat := isqrtFrom n (Nat.log2 n / 2 + 1) 0

/-- The radicand `XN` of ComputeNormalZ over the common denominator `(Mr*Mg)^2` (R113): the squared red term is
subtracted and the squared green term is ADDED, literally as the document has it (R112, C1). `a` and `b` are the
only signed quantities of the hardware. -/
def normalRadicand (denR nr denG ng : Nat) : Int :=
  let mr : Int := 255 * denR
  let mg : Int := 255 * denG
  let a : Int := 2 * nr - mr
  let b : Int := 2 * ng - mg
  mr * mr * mg * mg - a * a * mg * mg + b * b * mr * mr

/-- `B9` of ComputeNormalZ in integers (R113). It can exceed 255 (R114). -/
def normalZ (denR nr denG ng : Nat) : Nat :=
  (255 + isqrt (normalRadicand denR nr denG ng).toNat / (255 * denR * denG)) / 2

/-- The blue byte for `B9`: itself up to 255 (R112), the instance's `BLUE_OVF` above (R114). -/
def normalBlue (blueSel b9 : Nat) : Byte := if b9 ≤ 255 then BitVec.ofNat 8 b9 else Config.blueOvf blueSel b9

/-- The blue byte of a pixel (R111, R112, R114): the mode, and the pixel's palette entries before and after
denormalisation. -/
def blueByte (mode : BlueMode) (blueSel : Nat) (pr pg : Palette) (ri gi : Index) : Byte :=
  match mode with
  | .alwaysZero => 0
  | .alwaysOne => 255
  | .computeNormalZ => normalBlue blueSel (normalZ pr.den (pr.numerator ri) pg.den (pg.numerator gi))
  | .copyRed => pr.byte ri

/-- One pixel of DECOMPRESS (R110, R111, R115): alpha is the literal 1 in every mode. -/
def decodedPixel (mode : BlueMode) (blueSel : Nat) (pr pg : Palette) (ri gi : Index) : Pixel where
  r := pr.byte ri
  g := pg.byte gi
  b := blueByte mode blueSel pr pg ri gi
  a := 1

/-- The sixteen pixels of the palettes and the indices of the two channels (R107). -/
def decodedPixels (mode : BlueMode) (blueSel : Nat) (pr pg : Palette) (ri gi : Vector Index 16) : Vector Pixel 16 :=
  Vector.ofFn fun i : Fin 16 => decodedPixel mode blueSel pr pg ri[i] gi[i]

/-- The six bytes of an EncodedBlock from offset `start` on: the field of a channel (R39, R109). -/
def blockField (x : Vector Byte 16) (start : Nat) (h : start + 6 ≤ 16) : Vector Byte 6 :=
  Vector.ofFn fun j : Fin 6 => x[start + j.val]

/-- The result of DECOMPRESS: the pixel block of an EncodedBlock (R107 to R115). Any sixteen bytes are legal. -/
def decompressResult (mode : BlueMode) (blueSel : Nat) (x : Vector Byte 16) : Except Err (Vector Byte 64) :=
  .ok (pixelBlockBytes (decodedPixels mode blueSel (pal x[0] x[1]) (pal x[8] x[9])
    (unpack48 (blockField x 2 (by decide))) (unpack48 (blockField x 10 (by decide)))))

/-- COMPRESS (R101). -/
def execCompress (payload : List Byte) (s : State) : Host.Outcome State Fault Refusal :=
  runCommand compressResult payload s

/-- DECOMPRESS.z (R107, R111): blue is 0. -/
def execDecompressZ (payload : List Byte) (s : State) : Host.Outcome State Fault Refusal :=
  runCommand (decompressResult .alwaysZero s.blueSel) payload s

/-- DECOMPRESS.o (R107, R111): blue is 255. -/
def execDecompressO (payload : List Byte) (s : State) : Host.Outcome State Fault Refusal :=
  runCommand (decompressResult .alwaysOne s.blueSel) payload s

/-- DECOMPRESS.n (R107, R112 to R114): blue is computed as a normal's third component. -/
def execDecompressN (payload : List Byte) (s : State) : Host.Outcome State Fault Refusal :=
  runCommand (decompressResult .computeNormalZ s.blueSel) payload s

/-- DECOMPRESS.r (R107, R111): blue is the computed red byte. -/
def execDecompressR (payload : List Byte) (s : State) : Host.Outcome State Fault Refusal :=
  runCommand (decompressResult .copyRed s.blueSel) payload s

end Sys2Proof.Machine
end

