-- ==== Sys2Proof/Machine/Dispatch.lean ====
section
/-! DEFINITION. The meaning of each command, one arm per row of the opcode table (R55). -/

namespace Sys2Proof.Machine

def exec (i : Instr) (s : State) : Host.Outcome State Fault Refusal :=
  match i with
  | .palgen payload => Sys2Proof.Machine.execPalgen payload s
  | .pack payload => Sys2Proof.Machine.execPack payload s
  | .unpack payload => Sys2Proof.Machine.execUnpack payload s
  | .quant payload => Sys2Proof.Machine.execQuant payload s
  | .compress payload => Sys2Proof.Machine.execCompress payload s
  | .decompressZ payload => Sys2Proof.Machine.execDecompressZ payload s
  | .decompressO payload => Sys2Proof.Machine.execDecompressO payload s
  | .decompressN payload => Sys2Proof.Machine.execDecompressN payload s
  | .decompressR payload => Sys2Proof.Machine.execDecompressR payload s

end Sys2Proof.Machine
end

