-- ==== Sys2Proof/WellFormed.lean ====
section
/-! DEFINITION. When a command can be written as a frame: its payload length fits the 8-bit field `LEN` (R53).
A wrong length for the command is well-formed: it is the InvalidLength error of R121, not a malformed frame. -/

namespace Sys2Proof

/-- `LEN` is an unsigned 8-bit number, so a frame carries at most 255 payload bytes (R5 `LEN_MAX`, R53). -/
abbrev Instr.WellFormed (i : Instr) : Prop := i.payload.length ≤ 255

end Sys2Proof
end

