-- ==== Sys2Proof/Decode.lean ====
section
/-! DEFINITION. Decoding a command stream (R50 to R59, R64, R149) and encoding a command into its frame. -/

namespace Sys2Proof

/-- Which rule makes a command word reserved, in the order in which R64 (1) lists them. All of them
raise IllegalCommand; DESIGN CHOICE: a word that breaks several is named by the first (log entry 5). -/
inductive IllegalWord where
  /-- `RSV ≠ 0` (R57). -/
  | reservedBits
  /-- `OP` is 0 or 7 (R56). -/
  | reservedOpcode
  /-- `BM ≠ 0` with `OP ≠ 6` (R58). -/
  | blueModeNotZero
  deriving DecidableEq, Repr

/-- What stands at the head of a command stream. -/
inductive Decoded where
  /-- Fewer bytes than a whole frame: the command has not been issued (R149). -/
  | incomplete
  /-- A whole frame whose word is reserved; its `LEN` payload bytes are consumed and ignored (R56, R59). -/
  | illegal (why : IllegalWord) (rest : List Byte)
  /-- A whole frame of a legal command. -/
  | command (i : Instr) (rest : List Byte)
  deriving DecidableEq, Repr

/-- `RSV = CMD[15:13]` (R51). -/
def CmdWord.rsv (c : CmdWord) : BitVec 3 := c.extractLsb' 13 3

/-- `BM = CMD[12:11]` (R51). -/
def CmdWord.bm (c : CmdWord) : BitVec 2 := c.extractLsb' 11 2

/-- `OP = CMD[10:8]` (R51). -/
def CmdWord.op (c : CmdWord) : BitVec 3 := c.extractLsb' 8 3

/-- `LEN = CMD[7:0]` (R51, R53). -/
def CmdWord.len (c : CmdWord) : BitVec 8 := c.extractLsb' 0 8

/-- The opcode map R55 after the checks of R64 (1): the command that `OP` names, for `OP = 6` the one that
`BM` names (R54), with its payload. -/
def CmdWord.select (c : CmdWord) (payload : List Byte) : Except IllegalWord Instr :=
  if c.rsv ≠ 0 then .error .reservedBits
  else if c.op = 0 ∨ c.op = 7 then .error .reservedOpcode
  else if c.op ≠ 6 ∧ c.bm ≠ 0 then .error .blueModeNotZero
  else if c.op = 1 then .ok (.palgen payload)
  else if c.op = 2 then .ok (.pack payload)
  else if c.op = 3 then .ok (.unpack payload)
  else if c.op = 4 then .ok (.quant payload)
  else if c.op = 5 then .ok (.compress payload)
  else if c.bm = 0 then .ok (.decompressZ payload)
  else if c.bm = 1 then .ok (.decompressO payload)
  else if c.bm = 2 then .ok (.decompressN payload)
  else .ok (.decompressR payload)

/-- Read one frame from the head of a command stream (R52, R59): two bytes of command word, big-endian, then
`LEN` payload bytes. Total on every byte list (R64). -/
def decode : List Byte → Decoded
  | hi :: lo :: tail =>
    let c : CmdWord := hi ++ lo
    let n := c.len.toNat
    if tail.length < n then .incomplete
    else
      match c.select (tail.take n) with
      | .error why => .illegal why (tail.drop n)
      | .ok i => .command i (tail.drop n)
  | _ => .incomplete

/-- The `OP` of each command (R55). -/
def Instr.op : Instr → BitVec 3
  | .palgen _ => 1
  | .pack _ => 2
  | .unpack _ => 3
  | .quant _ => 4
  | .compress _ => 5
  | .decompressZ _ => 6
  | .decompressO _ => 6
  | .decompressN _ => 6
  | .decompressR _ => 6

/-- The `BM` of each command: the blue mode of DECOMPRESS (R54), 0 elsewhere (R58). -/
def Instr.bm : Instr → BitVec 2
  | .palgen _ => 0
  | .pack _ => 0
  | .unpack _ => 0
  | .quant _ => 0
  | .compress _ => 0
  | .decompressZ _ => 0
  | .decompressO _ => 1
  | .decompressN _ => 2
  | .decompressR _ => 3

/-- The command word: `RSV = 0`, `BM`, `OP` and `LEN`, the number of payload bytes (R51). -/
def Instr.word (i : Instr) : CmdWord :=
  (0 : BitVec 3) ++ i.bm ++ i.op ++ BitVec.ofNat 8 i.payload.length

/-- A command word as the two bytes of a stream, `CMD[15:8]` first (R52). -/
def CmdWord.bytes (c : CmdWord) : List Byte := [c.extractLsb' 8 8, c.extractLsb' 0 8]

/-- The frame of a command: its word, then its payload in offset order (R50, R52). -/
def encode (i : Instr) : List Byte := i.word.bytes ++ i.payload

/-- The frame of which the first bits, numbered as the opcode table numbers them (bits [15:0] the command word,
payload byte `j` at bits `[23+8j : 16+8j]`), are `w`, and every bit above `nbits` is 0 (log entry 10). -/
def frameOfTableWord (nbits w : Nat) : List Byte :=
  let v := w % 2 ^ nbits
  let c : CmdWord := BitVec.ofNat 16 v
  c.bytes ++ (List.range c.len.toNat).map fun j => BitVec.ofNat 8 (v / 2 ^ (16 + 8 * j))

/-- What the decoder reads from that frame; nothing where it refuses the word. -/
def decodeTableWord (nbits w : Nat) : Option Instr :=
  match decode (frameOfTableWord nbits w) with
  | .command i _ => some i
  | _ => none

end Sys2Proof
end

