-- ==== Sys2Proof/Machine/Fetch.lean ====
section
/-! DEFINITION. What surrounds the execution of a command: reading its frame from the host's stream (R52, R59, R149)
and completing a frame whose word is reserved (R122). -/

namespace Sys2Proof.Machine

/-- The frame at the head of the stream the host has delivered. -/
def fetch (s : State) : Decoded := decode s.stream

/-- A whole frame has not been delivered: no command is issued and the core waits (R149; log entry 3). -/
def awaitFrame : Host.Outcome State Fault Refusal := .fault .awaitingFrame

/-- A reserved word raises IllegalCommand, whichever rule it breaks; the frame has been consumed (R56 to R58, R122). -/
def completeIllegal (_why : IllegalWord) (s : State) : Host.Outcome State Fault Refusal :=
  .next (raiseError .illegalCommand s)

/-- The stream with one more frame at its head: the frame of a word of the opcode table (log entry 10). -/
def deliverTableWord (nbits w : Nat) (s : State) : State :=
  { s with stream := frameOfTableWord nbits w ++ s.stream }

end Sys2Proof.Machine
end

