-- ==== Sys2Proof/Machine/Step.lean ====
section
/-! DEFINITION. One step of the core: one command, whole (R10, R44). -/

namespace Sys2Proof.Machine

/-- Take the next frame of the stream and execute its command as one atomic step. The frame is consumed whatever
the outcome of the command (R59). -/
def step (s : State) : Host.Outcome State Fault Refusal :=
  match fetch s with
  | .incomplete => awaitFrame
  | .illegal why rest => completeIllegal why (consumeFrame rest s)
  | .command i rest => exec i (consumeFrame rest s)

/-- The state whose next frame is that of a word of the opcode table, its payload bytes above `nbits` zero: the
host's delivery of one frame, in front of what was delivered before (log entries 2 and 10). -/
def State.withFetchWord (s : State) (nbits w : Nat) : State := deliverTableWord nbits w s

end Sys2Proof.Machine
end

