-- ==== Sys2Proof/Machine/Assembler.lean ====
section
/-! DEFINITION. The assembler of R60 to R63, a tool of the host: source lines to a command stream. -/

namespace Sys2Proof.Machine

/-- The mnemonics of R61. -/
inductive Mnemonic where
  | palgen
  | pack
  | unpack
  | quant
  | compress
  | decompress
  deriving DecidableEq, Repr

/-- The suffixes: the blue modes of R54, and `.RG` of the pseudo-command `COMPRESS.RG` (R62). -/
inductive Suffix where
  | z
  | o
  | n
  | r
  | rg
  deriving DecidableEq, Repr

/-- A source line that is not empty: a command with its operands (R60), or `.cmd w, operand, ...` (R63). -/
inductive AsmLine where
  | command (m : Mnemonic) (suffix : Option Suffix) (operands : List Nat)
  | raw (w : Nat) (operands : List Nat)
  deriving DecidableEq, Repr

/-- Why the assembler rejects a line. -/
inductive AsmError where
  /-- The first word of the line is no mnemonic of R61 and not `.cmd`. -/
  | unknownMnemonic
  /-- A suffix that the mnemonic does not have (R61). -/
  | suffixNotAllowed
  /-- An operand that is neither decimal nor hexadecimal with the prefix `0x` (R60). -/
  | notANumber
  /-- An operand above 255 (R60). -/
  | operandNotAByte
  /-- More than 255 operands (R60). -/
  | tooManyOperands
  /-- `.cmd` without a word of the form `0xNNNN` (R63). -/
  | notACommandWord
  /-- `.cmd` with a number of operands other than `w[7:0]` (R63). -/
  | operandCountNotLen
  /-- `COMPRESS.RG` with a number of operands other than 32 (R62; log entry 12). -/
  | notThirtyTwoOperands
  deriving DecidableEq, Repr

/-- Operands as bytes; each must be 0 to 255 (R60). -/
def operandBytes : List Nat → Except AsmError (List Byte)
  | [] => .ok []
  | v :: vs =>
    if v ≤ 255 then
      match operandBytes vs with
      | .ok bs => .ok (BitVec.ofNat 8 v :: bs)
      | .error e => .error e
    else .error .operandNotAByte

/-- The payload of `COMPRESS.RG`: pixel `i` is `r[i], g[i], 0, 0` (R62). -/
def rgPayload (reds greens : List Byte) : List Byte := (reds.zip greens).flatMap fun rg => [rg.1, rg.2, 0, 0]

/-- The command that a mnemonic and a suffix name (R61), pseudo-commands expanded (R62). -/
def lineCommand (m : Mnemonic) (suffix : Option Suffix) (p : List Byte) : Except AsmError Instr :=
  match m, suffix with
  | .palgen, none => .ok (.palgen p)
  | .pack, none => .ok (.pack p)
  | .unpack, none => .ok (.unpack p)
  | .quant, none => .ok (.quant p)
  | .compress, none => .ok (.compress p)
  | .compress, some .rg =>
    if p.length = 32 then .ok (.compress (rgPayload (p.take 16) (p.drop 16))) else .error .notThirtyTwoOperands
  | .decompress, none => .ok (.decompressZ p)
  | .decompress, some .z => .ok (.decompressZ p)
  | .decompress, some .o => .ok (.decompressO p)
  | .decompress, some .n => .ok (.decompressN p)
  | .decompress, some .r => .ok (.decompressR p)
  | _, some _ => .error .suffixNotAllowed

/-- The frame of a command line: `LEN` is the number of payload bytes written, unchecked against the command's
required length (R60). -/
def assembleCommand (m : Mnemonic) (suffix : Option Suffix) (p : List Byte) : Except AsmError (List Byte) :=
  if p.length ≤ 255 then
    match lineCommand m suffix p with
    | .ok i => .ok (encode i)
    | .error e => .error e
  else .error .tooManyOperands

/-- The frame of `.cmd w, operand, ...`: the word unchanged, big-endian, then the operands (R63). -/
def assembleRaw (w : Nat) (p : List Byte) : Except AsmError (List Byte) :=
  if w < 65536 then
    if p.length = w % 256 then .ok (CmdWord.bytes (BitVec.ofNat 16 w) ++ p) else .error .operandCountNotLen
  else .error .notACommandWord

/-- The bytes a line emits (R60 to R63). -/
def assembleLine : AsmLine → Except AsmError (List Byte)
  | .command m suffix ops =>
    match operandBytes ops with
    | .ok p => assembleCommand m suffix p
    | .error e => .error e
  | .raw w ops =>
    match operandBytes ops with
    | .ok p => assembleRaw w p
    | .error e => .error e

/-- The command stream of a program, its lines in order (R59, R60). -/
def assembleLines : List AsmLine → Except AsmError (List Byte)
  | [] => .ok []
  | l :: ls =>
    match assembleLine l with
    | .error e => .error e
    | .ok f =>
      match assembleLines ls with
      | .error e => .error e
      | .ok fs => .ok (f ++ fs)

/-- A space or a tab (log entry 12). -/
def isBlank (c : Char) : Bool := c == ' ' || c == '\t'

/-- A text without the blanks around it. -/
def trimBlanks (cs : List Char) : List Char := ((cs.dropWhile isBlank).reverse.dropWhile isBlank).reverse

/-- A text cut at every `sep`. -/
def cutAt (sep : Char) : List Char → List (List Char)
  | [] => [[]]
  | c :: cs =>
    if c = sep then [] :: cutAt sep cs
    else
      match cutAt sep cs with
      | [] => [[c]]
      | t :: ts => (c :: t) :: ts

/-- The value of a digit below `base`: 0 to 9, then the letters, either case (log entry 12). -/
def digitValue (base : Nat) (c : Char) : Option Nat :=
  let v := c.toNat
  let d := if 48 ≤ v ∧ v ≤ 57 then v - 48
    else if 65 ≤ v ∧ v ≤ 70 then v - 55
    else if 97 ≤ v ∧ v ≤ 102 then v - 87
    else base
  if d < base then some d else none

/-- The value of digits after `acc`. -/
def digitsValue (base : Nat) : Nat → List Char → Option Nat
  | acc, [] => some acc
  | acc, c :: cs =>
    match digitValue base c with
    | some d => digitsValue base (acc * base + d) cs
    | none => none

/-- A number, decimal or hexadecimal with the prefix `0x` (R60). -/
def parseNumber : List Char → Option Nat
  | [] => none
  | '0' :: 'x' :: d :: ds => digitsValue 16 0 (d :: ds)
  | c :: cs => digitsValue 10 0 (c :: cs)

/-- The word of `.cmd`, written `0xNNNN` (R63). -/
def parseWord : List Char → Option Nat
  | '0' :: 'x' :: ds => if ds.length = 4 then digitsValue 16 0 ds else none
  | _ => none

/-- Operand texts as numbers. -/
def parseNumbers : List (List Char) → Except AsmError (List Nat)
  | [] => .ok []
  | t :: ts =>
    match parseNumber (trimBlanks t) with
    | none => .error .notANumber
    | some v =>
      match parseNumbers ts with
      | .ok vs => .ok (v :: vs)
      | .error e => .error e

/-- The mnemonics as they are written (R61). -/
def mnemonicOf (cs : List Char) : Option Mnemonic :=
  if cs = "PALGEN".toList then some .palgen
  else if cs = "PACK".toList then some .pack
  else if cs = "UNPACK".toList then some .unpack
  else if cs = "QUANT".toList then some .quant
  else if cs = "COMPRESS".toList then some .compress
  else if cs = "DECOMPRESS".toList then some .decompress
  else none

/-- The suffixes as they are written, the full stop among them; none is written as nothing (R54, R61, R62). -/
def suffixOf (cs : List Char) : Except AsmError (Option Suffix) :=
  if cs = [] then .ok none
  else if cs = ".z".toList then .ok (some .z)
  else if cs = ".o".toList then .ok (some .o)
  else if cs = ".n".toList then .ok (some .n)
  else if cs = ".r".toList then .ok (some .r)
  else if cs = ".RG".toList then .ok (some .rg)
  else .error .suffixNotAllowed

/-- The operand texts after the first word of a line: none if nothing stands there, else the texts between the
commas (R60). -/
def operandTexts (cs : List Char) : List (List Char) := if cs = [] then [] else cutAt ',' cs

/-- A command line: `MNEMONIC[.suffix] operand, operand, ...` (R60). -/
def parseCommand (word : List Char) (texts : List (List Char)) : Except AsmError AsmLine :=
  match mnemonicOf (word.takeWhile (· ≠ '.')) with
  | none => .error .unknownMnemonic
  | some m =>
    match suffixOf (word.dropWhile (· ≠ '.')), parseNumbers texts with
    | .error e, _ => .error e
    | _, .error e => .error e
    | .ok sfx, .ok ops => .ok (.command m sfx ops)

/-- The operands of `.cmd`: the word, then the bytes (R63). -/
def parseRaw : List (List Char) → Except AsmError AsmLine
  | [] => .error .notACommandWord
  | t :: ts =>
    match parseWord (trimBlanks t), parseNumbers ts with
    | none, _ => .error .notACommandWord
    | _, .error e => .error e
    | some w, .ok ops => .ok (.raw w ops)

/-- A line of source text; nothing if it is empty but for a comment from `;` on (R60). -/
def parseLine (text : List Char) : Except AsmError (Option AsmLine) :=
  let cs := trimBlanks (text.takeWhile (· ≠ ';'))
  let word := cs.takeWhile fun c => !isBlank c
  let texts := operandTexts (trimBlanks (cs.dropWhile fun c => !isBlank c))
  if cs = [] then .ok none
  else
    match if word = ".cmd".toList then parseRaw texts else parseCommand word texts with
    | .ok l => .ok (some l)
    | .error e => .error e

/-- The lines of a source text. -/
def parseLines : List (List Char) → Except AsmError (List AsmLine)
  | [] => .ok []
  | t :: ts =>
    match parseLine t, parseLines ts with
    | .error e, _ => .error e
    | _, .error e => .error e
    | .ok none, .ok ls => .ok ls
    | .ok (some l), .ok ls => .ok (l :: ls)

/-- The command stream of a source text. -/
def assembleText (text : List Char) : Except AsmError (List Byte) :=
  match parseLines (cutAt '\n' text) with
  | .ok ls => assembleLines ls
  | .error e => .error e

end Sys2Proof.Machine
end

