-- ==== Sys2Proof/Machine/HostPort.lean ====
section
/-! DEFINITION. What the host can do to a core between commands (R24, R140, R143, R149): deliver frames, read the
result registers, reset. The host writes no register (R24), and a read changes nothing. -/

namespace Sys2Proof.Machine

/-- The host delivers more bytes of its command stream (R52, R149). DESIGN CHOICE: delivered bytes are fixed. R46
says that bytes the host changes before issuing are seen by the command; here a change is seen up to delivery, and
none is possible between delivery and issue, which is the step (log entries 17 and 18). -/
def hostDeliver (bytes : List Byte) (s : State) : State := { s with stream := s.stream ++ bytes }

/-- The host reads `OUT[a]`. A byte that holds no value is refused, never a number (R15, R24). A read is allowed
before the issue of the next command (R143); DESIGN CHOICE: a command issues at its step and not when its frame is
delivered, so with a whole frame pending this still answers the last result (log entry 17). -/
def hostReadOut (s : State) (a : Nat) : Except Refusal Byte :=
  if a < outBytes then
    match outRead s.out a with
    | some b => .ok b
    | none => .error .outHoldsNoValue
  else .error .noSuchOutByte

/-- The host reads `OUTLEN` (R13, R24); of the last completed command while a frame is pending (log entry 17). -/
def hostReadOutLen (s : State) : BitVec 7 := s.outLen

/-- The host reads `STATUS` (R14, R24); of the last completed command while a frame is pending (log entry 17). -/
def hostReadStatus (s : State) : BitVec 8 := s.status.word

/-- The host reads `STATUS.ERR` and takes its meaning (R120); the codes 4 to 7 have none (U5). -/
def hostReadErr (s : State) : Except Refusal (Option Err) := errOfCode s.status.err

/-- Reset, an event from outside (R140): the registers as after reset. `pending` is what the host still presents
on the stream afterwards: the spec does not say what becomes of an unissued frame's bytes, so it is an argument
(log entry 8). The instance's `BLUE_OVF` is fixed for its life (R19). -/
def hostReset (pending : List Byte) (s : State) : State :=
  { State.reset with stream := pending, blueSel := s.blueSel }

end Sys2Proof.Machine
end

