-- ==== Sys2Proof/Machine/Platform.lean ====
section
/-! DEFINITION. Several cores (R132): `n` copies of the single core with no coupling. -/

namespace Sys2Proof.Machine

/-- `n` instances, each with its own registers and its own command stream (R132). -/
abbrev Platform (n : Nat) := Vector State n

/-- One step of instance `k`; every other instance stays as it is (R132). -/
def stepAt {n : Nat} (k : Fin n) (p : Platform n) : Host.Outcome (Platform n) Fault Refusal :=
  match step p[k] with
  | .next t => .next (p.set k t)
  | .fault r => .fault r
  | .refused r => .refused r

/-- The steps of a schedule, which names the instance that steps next, up to the first stop. -/
def runSchedule {n : Nat} : List (Fin n) → Platform n → Host.Outcome (Platform n) Fault Refusal
  | [], p => .next p
  | k :: ks, p =>
    match stepAt k p with
    | .next q => runSchedule ks q
    | .fault r => .fault r
    | .refused r => .refused r

end Sys2Proof.Machine
end

