-- ==== Sys2Proof/Safety.lean ====
section
/-! DEFINITION. The terms in which statements speak: what the host sees after a command, the invariant of the result
registers, reachable states, and the spec's formulas on plain numbers, written apart from the model's functions. -/

namespace Sys2Proof.Machine

/-- The result registers agree: `OUT` holds values at exactly the offsets below `OUTLEN` (R13, R15), `OUTLEN` is 0
or the result length of a command (R13), `ERR` is an assigned code (R14), and an error leaves no result (R127). -/
abbrev State.Consistent (s : State) : Prop :=
  outWf s.out = true ∧ s.out.map Prod.fst = List.range s.outLen.toNat ∧
  s.outLen.toNat ∈ [0, 6, 16, 25, 64] ∧ s.status.err.toNat ≤ 3 ∧ (s.status.err ≠ 0 → s.outLen = 0)

/-- The states that reset, the host's deliveries and the core's steps lead to, for any `BLUE_OVF`. -/
inductive State.Reachable : State → Prop where
  | reset (pending : List Byte) (s : State) : State.Reachable (hostReset pending s)
  | deliver (bytes : List Byte) (s : State) : State.Reachable s → State.Reachable (hostDeliver bytes s)
  | step (s t : State) : State.Reachable s → Machine.step s = .next t → State.Reachable t

/-- What the host reads after a success with result `r` (R15, R24, R32). -/
def State.Shows (t : State) (r : List Byte) : Prop :=
  hostReadStatus t = 0 ∧ (hostReadOutLen t).toNat = r.length ∧
  ∀ a < 64, hostReadOut t a = match r[a]? with
    | some b => .ok b
    | none => .error .outHoldsNoValue

/-- What the host reads after an error completion with `code` (R127). -/
def State.ShowsError (t : State) (code : BitVec 8) : Prop :=
  hostReadStatus t = code ∧ hostReadOutLen t = 0 ∧ ∀ a < 64, hostReadOut t a = .error .outHoldsNoValue

/-- The command completes with result `r`, and nothing but the result registers has changed. -/
def Answers (i : Instr) (s : State) (r : List Byte) : Prop :=
  ∃ t, exec i s = .next t ∧ t.Shows r ∧ t.stream = s.stream ∧ t.blueSel = s.blueSel

/-- The command ends by error completion with `code`, and nothing but the result registers has changed. -/
def Raises (i : Instr) (s : State) (code : BitVec 8) : Prop :=
  ∃ t, exec i s = .next t ∧ t.ShowsError code ∧ t.stream = s.stream ∧ t.blueSel = s.blueSel

/-- The command `mk` stands on a stream as the byte `hi`, its payload length, its payload (R50, R52, R55), and any
length but `n` raises InvalidLength (R121). -/
def CommandFrame (hi : Byte) (mk : List Byte → Instr) (n : Nat) : Prop :=
  (∀ p rest : List Byte, p.length ≤ 255 →
    decode (hi :: BitVec.ofNat 8 p.length :: (p ++ rest)) = .command (mk p) rest) ∧
  ∀ (p : List Byte) (s : State), p.length ≠ n → Raises (mk p) s 1

/-- Whatever its length and payload, a frame with opcode `op` whose first byte is not in `legal` raises
IllegalCommand (R57, R58, R122). -/
def IllegalUnless (op : Nat) (legal : List Nat) : Prop :=
  ∀ (h lo : Byte) (p rest : List Byte) (s : State), h.toNat % 8 = op → h.toNat ∉ legal → p.length = lo.toNat →
    s.stream = h :: lo :: (p ++ rest) →
    ∃ t, step s = .next t ∧ t.ShowsError 2 ∧ t.stream = rest ∧ t.blueSel = s.blueSel

/-- The parts of a frame on a stream: `CMD[15:8]`, `LEN`, the payload (R50, R52). -/
structure Frame where
  hi : Byte
  lo : Byte
  payload : List Byte
  deriving DecidableEq, Repr

/-- A frame is complete: it has exactly `LEN` payload bytes (R149). -/
abbrev Frame.Complete (f : Frame) : Prop := f.payload.length = f.lo.toNat

/-- The bytes of frames, one frame after another (R52, R59). -/
def framesBytes (fs : List Frame) : List Byte := fs.flatMap fun f => f.hi :: f.lo :: f.payload

/-- A byte stream that is a sequence of complete frames (R59, R63). -/
def WholeFrames (bs : List Byte) : Prop := ∃ fs : List Frame, (∀ f ∈ fs, f.Complete) ∧ bs = framesBytes fs

end Sys2Proof.Machine

namespace Sys2Proof.Claims

/-- Byte `i` of a list as a number; the statements use it only below the list's length. -/
def byteAt (p : List Byte) (i : Nat) : Nat := (p.getD i 0).toNat

/-- `DEN` of the endpoint pair (R72). -/
def denOf (e0 e1 : Nat) : Nat := if e0 > e1 then 7 else 5

/-- `PALN[k]` by the closed forms of R73 and R74. -/
def palnOf (e0 e1 k : Nat) : Nat :=
  if e0 > e1 then
    if k = 0 then 7 * e0 else if k = 1 then 7 * e1 else (8 - k) * e0 + (k - 1) * e1
  else
    if k = 0 then 5 * e0 else if k = 1 then 5 * e1 else if k = 6 then 0 else if k = 7 then 1275
    else (6 - k) * e0 + (k - 1) * e1

/-- `PALB[k]` (R75). -/
def palbOf (e0 e1 k : Nat) : Nat := palnOf e0 e1 k / denOf e0 e1

/-- The distance of sample `p` to entry `k` on the palette's scale (R92). -/
def distOf (e0 e1 p k : Nat) : Int := |((denOf e0 e1 * p : Nat) : Int) - (palnOf e0 e1 k : Int)|

/-- `k` is the lowest index among the entries nearest to sample `p` (R92, R93). -/
def IsNearest (e0 e1 p k : Nat) : Prop :=
  k < 8 ∧ ∀ j < 8, distOf e0 e1 p k ≤ distOf e0 e1 p j ∧ (j < k → distOf e0 e1 p k < distOf e0 e1 p j)

/-- The payload length each first byte of a legal frame requires (R53, R55); nothing for a reserved word. -/
def requiredLen (hi : Nat) : Option Nat :=
  if hi = 1 then some 2
  else if hi = 2 then some 16
  else if hi = 3 then some 6
  else if hi = 4 then some 18
  else if hi = 5 then some 64
  else if hi ∈ [6, 14, 22, 30] then some 16
  else none

/-- The number whose base-8 digits are the bytes of an index vector, digit 0 least significant (R81). -/
def fieldOfIndices (p : List Byte) : Nat := ∑ i ∈ Finset.range 16, byteAt p i * 8 ^ i

/-- The 48-bit number of the six bytes from offset `start` on, big-endian (R40). -/
def fieldAt (p : List Byte) (start : Nat) : Nat := ∑ j ∈ Finset.range 6, byteAt p (start + j) * 256 ^ (5 - j)

/-- Index `i` of a field: `(value >> (3*i)) & 0b111` (R86). -/
def indexOf (v i : Nat) : Nat := v / 8 ^ i % 8

/-- `XN` of R113 for the entries `k` and `j` of the palettes of `(r0, r1)` and `(g0, g1)`. -/
def radicandOf (r0 r1 k g0 g1 j : Nat) : Int :=
  let mr : Int := 255 * denOf r0 r1
  let mg : Int := 255 * denOf g0 g1
  let a : Int := 2 * palnOf r0 r1 k - mr
  let b : Int := 2 * palnOf g0 g1 j - mg
  (mr * mg) ^ 2 - (a * mg) ^ 2 + (b * mr) ^ 2

/-- `B9` of R113. -/
def b9Of (r0 r1 k g0 g1 j : Nat) : Nat :=
  (255 + Nat.sqrt (radicandOf r0 r1 k g0 g1 j).toNat / (255 * denOf r0 r1 * denOf g0 g1)) / 2

/-- Red, green and alpha of the sixteen pixels `r` that the EncodedBlock `p` decodes to (R108 to R110, R115). -/
def DecodesRedGreenAlpha (p r : List Byte) : Prop :=
  r.length = 64 ∧ ∀ i < 16,
    byteAt r (4 * i) = palbOf (byteAt p 0) (byteAt p 1) (indexOf (fieldAt p 2) i) ∧
    byteAt r (4 * i + 1) = palbOf (byteAt p 8) (byteAt p 9) (indexOf (fieldAt p 10) i) ∧
    byteAt r (4 * i + 3) = 1

/-- Blue of the sixteen pixels `r` under ComputeNormalZ (R113, R114). -/
def DecodesNormalBlue (blueSel : Nat) (p r : List Byte) : Prop :=
  ∀ i < 16,
    let b9 := b9Of (byteAt p 0) (byteAt p 1) (indexOf (fieldAt p 2) i)
      (byteAt p 8) (byteAt p 9) (indexOf (fieldAt p 10) i)
    (b9 ≤ 255 → byteAt r (4 * i + 2) = b9) ∧ (255 < b9 → r.getD (4 * i + 2) 0 = Config.blueOvf blueSel b9)

/-- One channel of an EncodedBlock: the bytes from offset `8*c` on are the least and the greatest of the sixteen
samples of channel `c` of the pixel block `p`, and the field of their nearest indices (R102 to R105). -/
def EncodesChannel (p r : List Byte) (c : Nat) : Prop :=
  (∃ i < 16, byteAt r (8 * c) = byteAt p (4 * i + c)) ∧ (∃ i < 16, byteAt r (8 * c + 1) = byteAt p (4 * i + c)) ∧
  (∀ i < 16, byteAt r (8 * c) ≤ byteAt p (4 * i + c) ∧ byteAt p (4 * i + c) ≤ byteAt r (8 * c + 1)) ∧
  ∀ i < 16, IsNearest (byteAt r (8 * c)) (byteAt r (8 * c + 1)) (byteAt p (4 * i + c))
    (indexOf (fieldAt r (8 * c + 2)) i)

/-- The 25 bytes of a palette record as numbers: `DEG`, eight big-endian numerators, eight
denormalised bytes (R43). -/
def recordOf (e0 e1 : Nat) : List Nat :=
  [if e0 > e1 then 0 else 1] ++
  ((List.range 8).flatMap fun k => [palnOf e0 e1 k / 256, palnOf e0 e1 k % 256]) ++
  (List.range 8).map (palbOf e0 e1)

end Sys2Proof.Claims
end

