-- ==== Sys2Proof/Certificates/Slice0/Obligations.lean ====
section
/-! DEFINITION. The statements: what the rules of the spec say of the machine, to be proved. Terms are in
Sys2Proof/Safety.lean. -/

open Sys2Proof Sys2Proof.Machine Sys2Proof.Claims

/-! ## Frames and decoding -/

/-- Every well-formed command, with every payload the encoding admits, decodes from its own frame, whatever follows
it on the stream (R50, R51, R52, R55). -/
def Obligations.DecodeEncodeRoundTrip : Prop :=
  ∀ (i : Instr) (rest : List Byte), i.WellFormed → decode (encode i ++ rest) = .command i rest

/-- The other direction: a stream that decodes to a command begins with that command's frame, so no two commands
share a frame and a decoded payload has a length that fits `LEN` (R53, R59, R149). -/
def Obligations.DecodedFrameIsItsEncoding : Prop :=
  ∀ (bs : List Byte) (i : Instr) (rest : List Byte), decode bs = .command i rest →
    i.WellFormed ∧ bs = encode i ++ rest

/-- R52: the first byte of a frame is `CMD[15:8]`, the second is `LEN`, then the payload in offset order. The first
bytes are those of R55. -/
def Obligations.FrameBytesOfEachCommand : Prop :=
  ∀ p : List Byte,
    encode (.palgen p) = 0x01 :: BitVec.ofNat 8 p.length :: p ∧
    encode (.pack p) = 0x02 :: BitVec.ofNat 8 p.length :: p ∧
    encode (.unpack p) = 0x03 :: BitVec.ofNat 8 p.length :: p ∧
    encode (.quant p) = 0x04 :: BitVec.ofNat 8 p.length :: p ∧
    encode (.compress p) = 0x05 :: BitVec.ofNat 8 p.length :: p ∧
    encode (.decompressZ p) = 0x06 :: BitVec.ofNat 8 p.length :: p ∧
    encode (.decompressO p) = 0x0E :: BitVec.ofNat 8 p.length :: p ∧
    encode (.decompressN p) = 0x16 :: BitVec.ofNat 8 p.length :: p ∧
    encode (.decompressR p) = 0x1E :: BitVec.ofNat 8 p.length :: p

/-- A few command words of R55, each as `{RSV, BM, OP}` and `LEN` written out bit by bit, decode to their commands. -/
def Obligations.OpcodeMapWordsDecode : Prop :=
  decode [0b00000001, 0b00000010, 7, 9] = .command (.palgen [7, 9]) [] ∧
  decode [0b00000011, 0b00000110, 1, 2, 3, 4, 5, 6] = .command (.unpack [1, 2, 3, 4, 5, 6]) [] ∧
  decode (0b00000100 :: 0b00010010 :: List.replicate 18 8) = .command (.quant (List.replicate 18 8)) [] ∧
  decode (0b00010110 :: 0b00010000 :: List.replicate 16 5) = .command (.decompressN (List.replicate 16 5)) []

/-- R56, R57, R58, R122: a frame whose word is one of the nine of R55 decodes to that command with its payload; a
frame with any other word is illegal, and the step raises IllegalCommand whatever `LEN` and the payload are, with
the frame consumed. WHICH reason the decoder names for a word that breaks several of the rules (`reservedBits`, then
`reservedOpcode`, then `blueModeNotZero`) is the model's choice (log entry 5): no rule orders them, and the outcome
is the same. -/
def Obligations.EveryWordIsOneOfNineOrIllegal : Prop :=
  ∀ (hi lo : Byte) (p rest : List Byte), p.length = lo.toNat →
    decode (hi :: lo :: (p ++ rest)) =
      (if hi.toNat = 1 then .command (.palgen p) rest
      else if hi.toNat = 2 then .command (.pack p) rest
      else if hi.toNat = 3 then .command (.unpack p) rest
      else if hi.toNat = 4 then .command (.quant p) rest
      else if hi.toNat = 5 then .command (.compress p) rest
      else if hi.toNat = 6 then .command (.decompressZ p) rest
      else if hi.toNat = 14 then .command (.decompressO p) rest
      else if hi.toNat = 22 then .command (.decompressN p) rest
      else if hi.toNat = 30 then .command (.decompressR p) rest
      else if hi.toNat / 32 ≠ 0 then .illegal .reservedBits rest
      else if hi.toNat % 8 = 0 ∨ hi.toNat % 8 = 7 then .illegal .reservedOpcode rest
      else .illegal .blueModeNotZero rest) ∧
    (hi.toNat ∉ [1, 2, 3, 4, 5, 6, 14, 22, 30] → ∀ s : State, s.stream = hi :: lo :: (p ++ rest) →
      ∃ t, step s = .next t ∧ t.ShowsError 2 ∧ t.stream = rest ∧ t.blueSel = s.blueSel)

/-- R149: the core takes no step exactly when the delivered bytes do not hold a whole frame. That the model says so
by the fault `awaitingFrame` is its own choice (log entry 3). -/
def Obligations.IncompleteFrameIsNotIssued : Prop :=
  ∀ s : State, step s = .fault .awaitingFrame ↔
    (s.stream.length < 2 ∨ ∃ (hi lo : Byte) (tail : List Byte), s.stream = hi :: lo :: tail ∧ tail.length < lo.toNat)

/-- R59: a whole frame always completes, and the next one starts `2 + LEN` bytes after its start, whatever the
outcome. -/
def Obligations.FrameConsumedWhateverOutcome : Prop :=
  ∀ (s : State) (hi lo : Byte) (tail : List Byte), s.stream = hi :: lo :: tail → lo.toNat ≤ tail.length →
    ∃ t, step s = .next t ∧ t.stream = s.stream.drop (2 + lo.toNat)

/-- When the bytes at the head of the stream decode to a command, a step is the execution of that command with the
frame taken off the stream (R10, R59). -/
def Obligations.StepRunsTheDecodedCommand : Prop :=
  ∀ (s : State) (i : Instr) (rest : List Byte), decode s.stream = .command i rest →
    step s = exec i { s with stream := rest }

/-- R59: complete frames are executed once each in order, one step a frame, whatever their outcomes: after `k` steps
exactly the first `k` frames are consumed, for every `k` up to the number of frames, where what follows them is left;
if nothing follows them, the core then waits (the fault is the model's choice of form, log entry 3). -/
def Obligations.WholeFramesRunToTheEnd : Prop :=
  ∀ (fs : List Frame) (rest : List Byte) (s : State), (∀ f ∈ fs, f.Complete) → s.stream = framesBytes fs ++ rest →
    (∀ k ≤ fs.length, ∃ t, core.run k s = .next t ∧ t.stream = framesBytes (fs.drop k) ++ rest) ∧
    (rest = [] → core.run (fs.length + 1) s = .fault .awaitingFrame)

/-! ## Errors -/

/-- R121: `LEN` is exactly the required length or InvalidLength is raised, for a shorter and a longer payload. -/
def Obligations.WrongLengthRaisesInvalidLength : Prop :=
  ∀ (p : List Byte) (s : State),
    (p.length ≠ 2 → Raises (.palgen p) s 1) ∧ (p.length ≠ 16 → Raises (.pack p) s 1) ∧
    (p.length ≠ 6 → Raises (.unpack p) s 1) ∧ (p.length ≠ 18 → Raises (.quant p) s 1) ∧
    (p.length ≠ 64 → Raises (.compress p) s 1) ∧ (p.length ≠ 16 → Raises (.decompressZ p) s 1) ∧
    (p.length ≠ 16 → Raises (.decompressO p) s 1) ∧ (p.length ≠ 16 → Raises (.decompressN p) s 1) ∧
    (p.length ≠ 16 → Raises (.decompressR p) s 1)

/-- R84, R123: PACK raises IndexRange when a byte of its sixteen is above 7; nothing else raises it. -/
def Obligations.IndexRangeExactlyFromPack : Prop :=
  (∀ (p : List Byte) (s : State), p.length = 16 → (∃ k < 16, 7 < byteAt p k) → Raises (.pack p) s 3) ∧
  ∀ (i : Instr) (s t : State), exec i s = .next t → hostReadStatus t = 3 →
    ∃ p, i = .pack p ∧ p.length = 16 ∧ ∃ k < 16, 7 < byteAt p k

/-- R126: when several errors apply, the one reported is IllegalCommand, then InvalidLength, then IndexRange. -/
def Obligations.StatusNamesTheFirstError : Prop :=
  ∀ (s : State) (hi lo : Byte) (p rest : List Byte), s.stream = hi :: lo :: (p ++ rest) → p.length = lo.toNat →
    ∃ t, step s = .next t ∧ hostReadStatus t =
      match requiredLen hi.toNat with
      | none => 2
      | some n =>
        if lo.toNat ≠ n then 1
        else if hi.toNat = 2 ∧ ∃ k ∈ List.range 16, 7 < byteAt p k then 3
        else 0

/-- R127: a command that raises an error ends with its code in ERR, `OUTLEN = 0`, no byte of `OUT` holding a value,
nothing else changed, and its frame consumed in full. -/
def Obligations.ErrorCompletionLeavesNoResult : Prop :=
  ∀ s t : State, step s = .next t → hostReadStatus t ≠ 0 →
    t.ShowsError (hostReadStatus t) ∧ t.blueSel = s.blueSel ∧
    ∃ (hi lo : Byte) (p : List Byte), p.length = lo.toNat ∧ s.stream = hi :: lo :: (p ++ t.stream)

/-- Every command answers a next state, from every state and with every payload: no instruction faults or is
refused (R128), and it changes the three result registers only. -/
def Obligations.EveryCommandCompletes : Prop :=
  ∀ (i : Instr) (s : State), ∃ t, exec i s = .next t ∧
    t = { s with out := t.out, outLen := t.outLen, status := t.status } ∧ t.Consistent

/-! ## Reset, the result registers, and the whole machine -/

/-- R20, R21, R22: after reset every byte of `OUT` holds no value, `OUTLEN = 0`, `STATUS = 0x00`. -/
def Obligations.ResetRegisters : Prop :=
  hostReadStatus State.reset = 0x00 ∧ hostReadOutLen State.reset = 0 ∧
  ∀ a < 64, hostReadOut State.reset a = .error .outHoldsNoValue

/-- The invariant of the result registers holds at reset. -/
def Obligations.ResetStateConsistent : Prop := State.reset.Consistent

/-- Every step keeps the invariant of the result registers; it even establishes it, from any state at all, reachable
or not, because no command reads the registers (R11, R13, R14, R15, R127). -/
def Obligations.EveryStepEndsConsistent : Prop :=
  ∀ s t : State, step s = .next t → t.Consistent

/-- Whatever the host delivers, whenever it resets the core, for any `BLUE_OVF`, and however many commands run, the
result registers agree. -/
def Obligations.ReachableStatesConsistent : Prop :=
  ∀ s : State, s.Reachable → s.Consistent

/-- R11: the new `OUT`, `OUTLEN` and `STATUS` are a function of the command and its payload alone, and for
DECOMPRESS.n also of `BLUE_OVF`. -/
def Obligations.ResultsAreStateless : Prop :=
  ∀ (i : Instr) (s s' : State), ((∃ p, i = .decompressN p) → s.blueSel = s'.blueSel) →
    ∃ t t', exec i s = .next t ∧ exec i s' = .next t' ∧
      t.out = t'.out ∧ t.outLen = t'.outLen ∧ t.status = t'.status

/-- R140: after the reset event the registers are those of R20 to R22, and reset cannot be observed through any
later command. That the pending stream is an argument is the model's choice (log entry 8). -/
def Obligations.ResetUnseenByCommands : Prop :=
  ∀ s : State, step (hostReset s.stream s) = step s ∧
    ∀ pending : List Byte, hostReadStatus (hostReset pending s) = 0x00 ∧ hostReadOutLen (hostReset pending s) = 0 ∧
      ∀ a < 64, hostReadOut (hostReset pending s) a = .error .outHoldsNoValue

/-- R15, R145: after a command the bytes of `OUT` below `OUTLEN` hold values and those from `OUTLEN` on hold none,
even where an earlier, longer result had written them; after an error, and after reset, none holds a value. -/
def Obligations.NoStaleBytesBeyondOutLen : Prop :=
  (∀ s t : State, step s = .next t → ∀ a < 64,
    (a < (hostReadOutLen t).toNat → ∃ b, hostReadOut t a = .ok b) ∧
    ((hostReadOutLen t).toNat ≤ a → hostReadOut t a = .error .outHoldsNoValue) ∧
    (hostReadStatus t ≠ 0 → hostReadOut t a = .error .outHoldsNoValue)) ∧
  ∀ a < 64, hostReadOut State.reset a = .error .outHoldsNoValue

/-- The reserved bits of STATUS read as 0 in every state, no step produces an ERR code of 4 to 7, and those codes
have no meaning (R14, R120). -/
def Obligations.OnlyAssignedErrCodes : Prop :=
  (∀ s : State, (hostReadStatus s).toNat < 8) ∧
  (∀ s t : State, step s = .next t → (hostReadStatus t).toNat ≤ 3 ∧ ∃ e, hostReadErr t = .ok e) ∧
  ∀ c : BitVec 3, errOfCode c = .error .unassignedErrCode ↔ 4 ≤ c.toNat

/-! ## Palette interpolator -/

/-- R71, R72, R73, R74, R43: PALGEN, its frame, its errors, and the palette record of any endpoint pair. -/
def Obligations.PalgenGivesPaletteRecord : Prop :=
  CommandFrame 0x01 .palgen 2 ∧ IllegalUnless 1 [0x01] ∧
  ∀ (e0 e1 : Byte) (s : State), ∃ r, Answers (.palgen [e0, e1]) s r ∧
    r.map BitVec.toNat = recordOf e0.toNat e1.toNat

/-- R75, R77: every byte is the floor of its numerator over DEN; entries 0 and 1 are the endpoints verbatim in both
branches; in the degenerate branch entries 6 and 7 are exactly 0 and 1. -/
def Obligations.PaletteEndpointsAndSentinels : Prop :=
  ∀ e0 e1 : Byte,
    (∀ k : Index, ((pal e0 e1).byte k).toNat = (pal e0 e1).numerator k / (pal e0 e1).den) ∧
    (pal e0 e1).byte 0 = e0 ∧ (pal e0 e1).byte 1 = e1 ∧
    (pal e0 e1).numerator 0 = (pal e0 e1).den * e0.toNat ∧ (pal e0 e1).numerator 1 = (pal e0 e1).den * e1.toNat ∧
    (e0.toNat ≤ e1.toNat → (pal e0 e1).den = 5 ∧ (pal e0 e1).numerator 6 = 0 ∧ (pal e0 e1).numerator 7 = 1275 ∧
      (pal e0 e1).byte 6 = 0 ∧ (pal e0 e1).byte 7 = 255)

/-- R76: numerators fit 11 bits and are at most `255 * DEN`; every interpolated one lies between the scaled
endpoints. -/
def Obligations.PaletteNumeratorsBounded : Prop :=
  ∀ (e0 e1 : Byte) (k : Index),
    (pal e0 e1).numerator k ≤ 255 * (pal e0 e1).den ∧ (pal e0 e1).numerator k < 2 ^ 11 ∧
    (e1.toNat < e0.toNat ∨ k.toNat < 6 →
      (pal e0 e1).den * min e0.toNat e1.toNat ≤ (pal e0 e1).numerator k ∧
      (pal e0 e1).numerator k ≤ (pal e0 e1).den * max e0.toNat e1.toNat)

/-- R78: the value order of the entries: descending in the index order 0, 2, 3, 4, 5, 6, 7, 1 in the standard branch,
ascending in the order 0, 2, 3, 4, 5, 1 between the sentinels in the degenerate one, equal for equal endpoints. -/
def Obligations.PaletteValueOrder : Prop :=
  ∀ e0 e1 : Byte, let n := (pal e0 e1).numerator
    (e1.toNat < e0.toNat → ([0, 2, 3, 4, 5, 6, 7, 1] : List Index).Pairwise fun k j => n j < n k) ∧
    (e0.toNat < e1.toNat → ([0, 2, 3, 4, 5, 1] : List Index).Pairwise fun k j => n k < n j) ∧
    (e0.toNat ≤ e1.toNat → ∀ k : Index, n 6 ≤ n k ∧ n k ≤ n 7) ∧
    (e0 = e1 → ∀ k : Index, k.toNat < 6 → n k = n 0)

/-! ## Index packer -/

/-- R82, R83, R84: PACK, its frame, its errors, and the six bytes of the field whose base-8 digits are the indices. -/
def Obligations.PackGivesIndexField : Prop :=
  CommandFrame 0x02 .pack 16 ∧ IllegalUnless 2 [0x02] ∧
  ∀ (p : List Byte) (s : State), p.length = 16 →
    ((∀ i < 16, byteAt p i ≤ 7) → ∃ r, Answers (.pack p) s r ∧ r.length = 6 ∧ fieldAt r 0 = fieldOfIndices p) ∧
    ((∃ i < 16, 7 < byteAt p i) → Raises (.pack p) s 3)

/-- R85, R86: UNPACK, its frame, its errors, and the sixteen indices of any six bytes. -/
def Obligations.UnpackGivesIndexVector : Prop :=
  CommandFrame 0x03 .unpack 6 ∧ IllegalUnless 3 [0x03] ∧
  ∀ (p : List Byte) (s : State), p.length = 6 →
    ∃ r, Answers (.unpack p) s r ∧ r.length = 16 ∧ ∀ i < 16, byteAt r i = indexOf (fieldAt p 0) i

/-- R87: PACK48 and UNPACK48 are inverse to each other. -/
def Obligations.PackUnpackInverse : Prop :=
  (∀ idx : Vector Index 16, unpack48 (pack48 idx) = idx) ∧ ∀ b : Vector Byte 6, pack48 (unpack48 b) = b

/-- R88: the byte-by-byte table of the field. -/
def Obligations.FieldByteTable : Prop :=
  ∀ idx : Vector Index 16,
    (pack48 idx)[0] = idx[15] ++ idx[14] ++ idx[13].extractLsb' 1 2 ∧
    (pack48 idx)[1] = idx[13].extractLsb' 0 1 ++ idx[12] ++ idx[11] ++ idx[10].extractLsb' 2 1 ∧
    (pack48 idx)[2] = idx[10].extractLsb' 0 2 ++ idx[9] ++ idx[8] ∧
    (pack48 idx)[3] = idx[7] ++ idx[6] ++ idx[5].extractLsb' 1 2 ∧
    (pack48 idx)[4] = idx[5].extractLsb' 0 1 ++ idx[4] ++ idx[3] ++ idx[2].extractLsb' 2 1 ∧
    (pack48 idx)[5] = idx[2].extractLsb' 0 2 ++ idx[1] ++ idx[0]

/-! ## Quantizer -/

/-- R91, R92: QUANT, its frame, its errors, and for each lane the lowest index among the nearest entries, with the
endpoints as given in either order. -/
def Obligations.QuantGivesNearestIndices : Prop :=
  CommandFrame 0x04 .quant 18 ∧ IllegalUnless 4 [0x04] ∧
  ∀ (p : List Byte) (s : State), p.length = 18 →
    ∃ r, Answers (.quant p) s r ∧ r.length = 16 ∧
      ∀ i < 16, IsNearest (byteAt p 0) (byteAt p 1) (byteAt p (2 + i)) (byteAt r i)

/-- R95: the scaled comparison is the document's, on the exact normalised values: the index selected minimises
`|p/255 - palette[k]|`, strictly against every lower index. -/
def Obligations.NearestIsTheDocumentsSelection : Prop :=
  ∀ (e0 e1 p : Byte) (j : Index),
    let value := fun k : Index => ((pal e0 e1).numerator k : ℚ) / (255 * (pal e0 e1).den)
    let k := nearest (pal e0 e1) p
    |(p.toNat : ℚ) / 255 - value k| ≤ |(p.toNat : ℚ) / 255 - value j| ∧
    (j.toNat < k.toNat → |(p.toNat : ℚ) / 255 - value k| < |(p.toNat : ℚ) / 255 - value j|)

/-- R96, R106 (d): with the endpoints at or around the sample, entries 6 and 7 are never selected; and so every index
of both fields of a COMPRESS result is at most 5. -/
def Obligations.CompressIndicesUpToFive : Prop :=
  (∀ lo hi p : Byte, lo.toNat ≤ p.toNat → p.toNat ≤ hi.toNat → (nearest (pal lo hi) p).toNat ≤ 5) ∧
  ∀ (p : List Byte) (s : State), p.length = 64 → ∃ r, Answers (.compress p) s r ∧
    ∀ i < 16, indexOf (fieldAt r 2) i ≤ 5 ∧ indexOf (fieldAt r 10) i ≤ 5

/-! ## Block codec -/

/-- R101, R102, R105: COMPRESS, its frame, its errors, and for each of the two channels the minimum, the maximum and
the packed nearest indices of its samples. -/
def Obligations.CompressGivesEncodedBlock : Prop :=
  CommandFrame 0x05 .compress 64 ∧ IllegalUnless 5 [0x05] ∧
  ∀ (p : List Byte) (s : State), p.length = 64 →
    ∃ r, Answers (.compress p) s r ∧ r.length = 16 ∧ EncodesChannel p r 0 ∧ EncodesChannel p r 1

/-- R38, R106: COMPRESS never reads the blue and alpha bytes. -/
def Obligations.CompressIgnoresBlueAndAlpha : Prop :=
  ∀ (p q : List Byte) (s : State), p.length = 64 → q.length = 64 →
    (∀ i < 16, byteAt p (4 * i) = byteAt q (4 * i) ∧ byteAt p (4 * i + 1) = byteAt q (4 * i + 1)) →
    exec (.compress p) s = exec (.compress q) s

/-- R107 to R111, R113 to R115: DECOMPRESS in its four blue modes, their frames, errors and results. Above 255 the
blue byte of ComputeNormalZ is the instance's open `BLUE_OVF`, whatever it is. -/
def Obligations.DecompressGivesPixelBlock : Prop :=
  CommandFrame 0x06 .decompressZ 16 ∧ CommandFrame 0x0E .decompressO 16 ∧ CommandFrame 0x16 .decompressN 16 ∧
  CommandFrame 0x1E .decompressR 16 ∧ IllegalUnless 6 [0x06, 0x0E, 0x16, 0x1E] ∧
  ∀ (p : List Byte) (s : State), p.length = 16 →
    (∃ r, Answers (.decompressZ p) s r ∧ DecodesRedGreenAlpha p r ∧ ∀ i < 16, byteAt r (4 * i + 2) = 0) ∧
    (∃ r, Answers (.decompressO p) s r ∧ DecodesRedGreenAlpha p r ∧ ∀ i < 16, byteAt r (4 * i + 2) = 255) ∧
    (∃ r, Answers (.decompressN p) s r ∧ DecodesRedGreenAlpha p r ∧ DecodesNormalBlue s.blueSel p r) ∧
    (∃ r, Answers (.decompressR p) s r ∧ DecodesRedGreenAlpha p r ∧
      ∀ i < 16, byteAt r (4 * i + 2) = byteAt r (4 * i))

/-- R112: the integer computation is the document's formula over the reals, with the exact square root and the exact
floor: the radicand is never negative, up to 255 the blue byte is the floor, above it the open parameter. -/
def Obligations.NormalZIsTheRealFormula : Prop :=
  ∀ (blueSel : Nat) (r0 r1 g0 g1 : Byte) (ri gi : Index),
    let r : ℝ := (pal r0 r1).numerator ri / (255 * (pal r0 r1).den)
    let g : ℝ := (pal g0 g1).numerator gi / (255 * (pal g0 g1).den)
    let x : ℝ := 1 - (2 * r - 1) ^ 2 + (2 * g - 1) ^ 2
    let b9 : ℤ := ⌊255 * (Real.sqrt x / 2 + 1 / 2)⌋
    let blue := blueByte .computeNormalZ blueSel (pal r0 r1) (pal g0 g1) ri gi
    0 ≤ x ∧ (b9 ≤ 255 → (blue.toNat : ℤ) = b9) ∧ (255 < b9 → blue = Config.blueOvf blueSel b9.toNat)

/-- R118 (a): `B9` is between 127 and 307. -/
def Obligations.NormalZRange : Prop :=
  ∀ (r0 r1 g0 g1 : Byte) (ri gi : Index),
    127 ≤ normalZ (pal r0 r1).den ((pal r0 r1).numerator ri) (pal g0 g1).den ((pal g0 g1).numerator gi) ∧
    normalZ (pal r0 r1).den ((pal r0 r1).numerator ri) (pal g0 g1).den ((pal g0 g1).numerator gi) ≤ 307

/-- R118 (b): where `|2g - 1| ≤ |2r - 1|` there is no overflow, and equality gives 255 exactly. -/
def Obligations.NormalZNoOverflow : Prop :=
  ∀ (r0 r1 g0 g1 : Byte) (ri gi : Index),
    let mr : Int := 255 * (pal r0 r1).den
    let mg : Int := 255 * (pal g0 g1).den
    let a : Int := |2 * ((pal r0 r1).numerator ri : Int) - mr| * mg
    let b : Int := |2 * ((pal g0 g1).numerator gi : Int) - mg| * mr
    let b9 := normalZ (pal r0 r1).den ((pal r0 r1).numerator ri) (pal g0 g1).den ((pal g0 g1).numerator gi)
    (b ≤ a → b9 ≤ 255) ∧ (b = a → b9 = 255)

/-- R113, R8: the integer radicand is positive and below `2^45`. -/
def Obligations.NormalRadicandBounds : Prop :=
  ∀ (r0 r1 g0 g1 : Byte) (ri gi : Index),
    0 < normalRadicand (pal r0 r1).den ((pal r0 r1).numerator ri) (pal g0 g1).den ((pal g0 g1).numerator gi) ∧
    normalRadicand (pal r0 r1).den ((pal r0 r1).numerator ri) (pal g0 g1).den ((pal g0 g1).numerator gi) < 2 ^ 45

/-- R116 (a), (b): COMPRESS then DECOMPRESS in any mode returns every sample within the channel's range and within
`(hi - lo)/10 + 1`, and the minimum and maximum samples exactly. -/
def Obligations.RoundTripWithinBound : Prop :=
  ∀ (p : List Byte) (s : State) (mode : List Byte → Instr), p.length = 64 →
    mode ∈ [Instr.decompressZ, Instr.decompressO, Instr.decompressN, Instr.decompressR] →
    ∃ e q, Answers (.compress p) s e ∧ Answers (mode e) s q ∧ ∀ c < 2, ∀ i < 16,
      let lo := byteAt e (8 * c)
      let hi := byteAt e (8 * c + 1)
      let x := byteAt p (4 * i + c)
      let y := byteAt q (4 * i + c)
      lo ≤ y ∧ y ≤ hi ∧ 10 * |(x : Int) - y| < (hi - lo : Int) + 10 ∧ (x = lo ∨ x = hi → y = x)

/-- R116 (d): compressing the decompressed block again gives the same four reference bytes. -/
def Obligations.RecompressionKeepsReferences : Prop :=
  ∀ (p : List Byte) (s : State) (mode : List Byte → Instr), p.length = 64 →
    mode ∈ [Instr.decompressZ, Instr.decompressO, Instr.decompressN, Instr.decompressR] →
    ∃ e q e', Answers (.compress p) s e ∧ Answers (mode e) s q ∧ Answers (.compress q) s e' ∧
      ∀ a ∈ [0, 1, 8, 9], byteAt e' a = byteAt e a

/-- R97, R104: the sequence QUANT with a channel's minimum and maximum, then PACK of its result, gives the six index
bytes of that channel in COMPRESS. -/
def Obligations.QuantThenPackIsCompressChannel : Prop :=
  ∀ (p : List Byte) (s : State) (c : Nat), p.length = 64 → c < 2 →
    ∃ e idx f, Answers (.compress p) s e ∧
      Answers (.quant (e.getD (8 * c) 0 :: e.getD (8 * c + 1) 0 ::
        (List.range 16).map fun i => p.getD (4 * i + c) 0)) s idx ∧
      Answers (.pack idx) s f ∧ f = (e.drop (8 * c + 2)).take 6

/-! ## Several cores -/

/-- R132: any interleaving of the steps of several instances gives each instance the same results as running
alone, and completes if each of them does. -/
def Obligations.InterleavingEqualsRunningAlone : Prop :=
  ∀ (n : Nat) (ks : List (Fin n)) (p : Platform n),
    (∀ q, runSchedule ks p = .next q → ∀ k : Fin n, core.run (ks.count k) p[k] = .next q[k]) ∧
    ((∀ k : Fin n, ∃ t, core.run (ks.count k) p[k] = .next t) → ∃ q, runSchedule ks p = .next q)

/-! ## Assembler -/

/-- R60, R61: a command line assembles to the command's frame with `LEN` the number of operands written, whatever
the command requires; an operand above 255, more than 255 operands, and a suffix the mnemonic does not have are rejected: any
suffix on another mnemonic than DECOMPRESS (but for the pseudo-command `COMPRESS.RG`), and `.RG` on DECOMPRESS. No
rule says the last: it is DEDUCED from the suffixes of R54 and the pseudo-commands of R62 (log entry 12). -/
def Obligations.CommandLinesAssemble : Prop :=
  (∀ ops : List Nat, (∀ v ∈ ops, v ≤ 255) → ops.length ≤ 255 →
    let p := ops.map (BitVec.ofNat 8)
    assembleLine (.command .palgen none ops) = .ok (encode (.palgen p)) ∧
    assembleLine (.command .pack none ops) = .ok (encode (.pack p)) ∧
    assembleLine (.command .unpack none ops) = .ok (encode (.unpack p)) ∧
    assembleLine (.command .quant none ops) = .ok (encode (.quant p)) ∧
    assembleLine (.command .compress none ops) = .ok (encode (.compress p)) ∧
    assembleLine (.command .decompress (some .z) ops) = .ok (encode (.decompressZ p)) ∧
    assembleLine (.command .decompress (some .o) ops) = .ok (encode (.decompressO p)) ∧
    assembleLine (.command .decompress (some .n) ops) = .ok (encode (.decompressN p)) ∧
    assembleLine (.command .decompress (some .r) ops) = .ok (encode (.decompressR p))) ∧
  (∀ (m : Mnemonic) (sfx : Option Suffix) (ops : List Nat), (∃ v ∈ ops, 255 < v) ∨ 255 < ops.length →
    ∃ e, assembleLine (.command m sfx ops) = .error e) ∧
  ∀ (m : Mnemonic) (sfx : Suffix) (ops : List Nat), m ≠ .decompress ∨ sfx = .rg → ¬ (m = .compress ∧ sfx = .rg) →
    ∃ e, assembleLine (.command m (some sfx) ops) = .error e

/-- R62: DECOMPRESS without a suffix is DECOMPRESS.z; COMPRESS.RG of sixteen reds and sixteen greens is COMPRESS of
the sixteen pixels with blue and alpha 0. -/
def Obligations.PseudoCommandsExpand : Prop :=
  (∀ ops : List Nat, assembleLine (.command .decompress none ops) = assembleLine (.command .decompress (some .z) ops)) ∧
  ∀ reds greens : List Nat, reds.length = 16 → greens.length = 16 → (∀ v ∈ reds ++ greens, v ≤ 255) →
    assembleLine (.command .compress (some .rg) (reds ++ greens)) =
      assembleLine (.command .compress none ((List.range 16).flatMap fun i => [reds.getD i 0, greens.getD i 0, 0, 0]))

/-- R63: `.cmd` emits its word unchanged, big-endian, then the operands, and is rejected unless there are exactly
`w[7:0]` of them. -/
def Obligations.RawDirectiveEmitsWord : Prop :=
  ∀ (w : Nat) (ops : List Nat), w < 65536 → (∀ v ∈ ops, v ≤ 255) →
    (ops.length = w % 256 → assembleLine (.raw w ops) =
      .ok (BitVec.ofNat 8 (w / 256) :: BitVec.ofNat 8 (w % 256) :: ops.map (BitVec.ofNat 8))) ∧
    (ops.length ≠ w % 256 → ∃ e, assembleLine (.raw w ops) = .error e)

/-- R63: every assembled stream is a sequence of complete frames. -/
def Obligations.AssembledStreamIsWholeFrames : Prop :=
  ∀ (ls : List AsmLine) (bs : List Byte), assembleLines ls = .ok bs → WholeFrames bs
end

