-- ==== Sys2Proof/Laws/Operands.lean ====
section
/-! SUPPORT. The element of each layout at an offset: one lemma per layout, so that no proof unfolds one. -/

namespace Sys2Proof.Machine

@[simp] theorem indexVectorBytes_getElem (idx : Vector Index 16) (i : Nat) (h : i < 16) :
    (indexVectorBytes idx)[i] = idx[i].setWidth 8 := by
  simp [indexVectorBytes]

@[simp] theorem indexVectorOf_getElem (x : Vector Byte 16) (i : Nat) (h : i < 16) :
    (indexVectorOf x)[i] = x[i].extractLsb' 0 3 := by
  simp [indexVectorOf]

/-- The byte of an index is the index (R41). -/
theorem indexByte_toNat (k : Index) : (k.setWidth 8).toNat = k.toNat := by
  have := k.isLt
  rw [BitVec.toNat_setWidth]
  omega

@[simp] theorem quantize_getElem (p : Palette) (px : Vector Byte 16) (i : Nat) (h : i < 16) :
    (quantize p px)[i] = nearest p px[i] := by
  simp [quantize]

@[simp] theorem quantSamples_getElem (x : Vector Byte 18) (i : Nat) (h : i < 16) :
    (quantSamples x)[i] = x[2 + i] := by
  simp [quantSamples]

@[simp] theorem channelSamples_getElem (c : Fin 2) (x : Vector Byte 64) (i : Nat) (h : i < 16) :
    (channelSamples c x)[i] = x[4 * i + c.val] := by
  simp [channelSamples]

@[simp] theorem blockField_getElem (x : Vector Byte 16) (start : Nat) (hs : start + 6 ≤ 16) (j : Nat) (h : j < 6) :
    (blockField x start hs)[j] = x[start + j] := by
  simp [blockField]

@[simp] theorem decodedPixels_getElem (mode : BlueMode) (blueSel : Nat) (pr pg : Palette) (ri gi : Vector Index 16)
    (i : Nat) (h : i < 16) :
    (decodedPixels mode blueSel pr pg ri gi)[i] = decodedPixel mode blueSel pr pg ri[i] gi[i] := by
  simp [decodedPixels]

/-- Pixel `i` of a pixel block stands at offsets `4*i` to `4*i + 3`, red, green, blue, alpha (R38). -/
theorem pixelBlockBytes_getElem (px : Vector Pixel 16) (i : Nat) (h : i < 16) :
    (pixelBlockBytes px)[4 * i] = px[i].r ∧ (pixelBlockBytes px)[4 * i + 1] = px[i].g ∧
    (pixelBlockBytes px)[4 * i + 2] = px[i].b ∧ (pixelBlockBytes px)[4 * i + 3] = px[i].a := by
  refine ⟨?_, ?_, ?_, ?_⟩ <;>
    simp [pixelBlockBytes, Pixel.byte, Nat.add_div, Nat.add_mod, Nat.mul_mod_right]

/-- The palette record at its offsets (R43). -/
theorem paletteRecord_getElem (p : Palette) :
    (paletteRecord p)[0] = degByte p.deg ∧ ∀ k : Fin 8,
      (paletteRecord p)[1 + 2 * k.val] = hiByte p.paln[k] ∧ (paletteRecord p)[2 + 2 * k.val] = loByte p.paln[k] ∧
      (paletteRecord p)[17 + k.val] = p.palb[k] := by
  refine ⟨by simp [paletteRecord], fun k => ?_⟩
  fin_cases k <;> simp [paletteRecord, bigEndian16]

/-- The two reference bytes of a compressed channel, then its field (R39, R101). -/
theorem compressChannel_getElem (s : Vector Byte 16) :
    (compressChannel s)[0] = (pal (lowest s) (highest s)).palb[0] ∧
    (compressChannel s)[1] = (pal (lowest s) (highest s)).palb[1] ∧
    ∀ j : Nat, (h : j < 6) →
      (compressChannel s)[2 + j] = (pack48 (quantize (pal (lowest s) (highest s)) s))[j] := by
  refine ⟨by simp [compressChannel], by simp [compressChannel], fun j h => ?_⟩
  simp [compressChannel, show ¬ 2 + j ≤ 1 by omega]

/-- The channels of an EncodedBlock at their offsets (R39). -/
theorem encodedBlock_getElem (red green : Vector Byte 8) (j : Nat) (h : j < 8) :
    (encodedBlock red green)[j] = red[j] ∧ (encodedBlock red green)[8 + j] = green[j] := by
  refine ⟨by simp [encodedBlock, h], ?_⟩
  simp [encodedBlock, show ¬ 8 + j < 8 by omega]

end Sys2Proof.Machine
end

