-- ==== Sys2Proof/Laws/State.lean ====
section
/-! SUPPORT. One lemma per field of State per update, so that no proof unfolds a record update. -/

namespace Sys2Proof.Machine

section
variable {m : Nat} (r : Vector Byte m) (e : Err) (rest pending : List Byte) (nbits w : Nat) (s : State)

@[simp] theorem resultComplete_out : (resultComplete r s).out = outOfResult r.toList := rfl
@[simp] theorem resultComplete_outLen : (resultComplete r s).outLen = BitVec.ofNat 7 m := rfl
@[simp] theorem resultComplete_status : (resultComplete r s).status = { err := okCode } := rfl
@[simp] theorem resultComplete_stream : (resultComplete r s).stream = s.stream := rfl
@[simp] theorem resultComplete_blueSel : (resultComplete r s).blueSel = s.blueSel := rfl

@[simp] theorem raiseError_out : (raiseError e s).out = outNone := rfl
@[simp] theorem raiseError_outLen : (raiseError e s).outLen = 0 := rfl
@[simp] theorem raiseError_status : (raiseError e s).status = { err := e.code } := rfl
@[simp] theorem raiseError_stream : (raiseError e s).stream = s.stream := rfl
@[simp] theorem raiseError_blueSel : (raiseError e s).blueSel = s.blueSel := rfl

@[simp] theorem consumeFrame_out : (consumeFrame rest s).out = s.out := rfl
@[simp] theorem consumeFrame_outLen : (consumeFrame rest s).outLen = s.outLen := rfl
@[simp] theorem consumeFrame_status : (consumeFrame rest s).status = s.status := rfl
@[simp] theorem consumeFrame_stream : (consumeFrame rest s).stream = rest := rfl
@[simp] theorem consumeFrame_blueSel : (consumeFrame rest s).blueSel = s.blueSel := rfl

@[simp] theorem hostDeliver_out : (hostDeliver rest s).out = s.out := rfl
@[simp] theorem hostDeliver_outLen : (hostDeliver rest s).outLen = s.outLen := rfl
@[simp] theorem hostDeliver_status : (hostDeliver rest s).status = s.status := rfl
@[simp] theorem hostDeliver_stream : (hostDeliver rest s).stream = s.stream ++ rest := rfl
@[simp] theorem hostDeliver_blueSel : (hostDeliver rest s).blueSel = s.blueSel := rfl

@[simp] theorem hostReset_out : (hostReset pending s).out = [] := rfl
@[simp] theorem hostReset_outLen : (hostReset pending s).outLen = 0 := rfl
@[simp] theorem hostReset_status : (hostReset pending s).status = { err := 0 } := rfl
@[simp] theorem hostReset_stream : (hostReset pending s).stream = pending := rfl
@[simp] theorem hostReset_blueSel : (hostReset pending s).blueSel = s.blueSel := rfl

@[simp] theorem deliverTableWord_out : (deliverTableWord nbits w s).out = s.out := rfl
@[simp] theorem deliverTableWord_outLen : (deliverTableWord nbits w s).outLen = s.outLen := rfl
@[simp] theorem deliverTableWord_status : (deliverTableWord nbits w s).status = s.status := rfl
@[simp] theorem deliverTableWord_stream :
    (deliverTableWord nbits w s).stream = frameOfTableWord nbits w ++ s.stream := rfl
@[simp] theorem deliverTableWord_blueSel : (deliverTableWord nbits w s).blueSel = s.blueSel := rfl
end

end Sys2Proof.Machine
end

