-- ==== Sys2Proof/Laws/Ops.lean ====
section
/-! SUPPORT. What the shared operations do, said once each: the result buffer, the two ways a command completes, and
the length check. -/

namespace Sys2Proof.Machine

/-- A byte of the buffer read back: inside the written run its value, outside nothing. -/
theorem outRead_outCellsFrom (bs : List Byte) : ∀ k a : Nat,
    outRead (outCellsFrom k bs) a = if k ≤ a then bs[a - k]? else none := by
  induction bs with
  | nil => intro k a; simp [outCellsFrom, outRead]
  | cons b bs ih =>
    intro k a
    simp only [outCellsFrom, outRead, ih]
    rcases Nat.lt_trichotomy k a with h | h | h
    · obtain ⟨d, rfl⟩ : ∃ d, a = k + 1 + d := ⟨a - (k + 1), by omega⟩
      have h1 : k + 1 + d - k = d + 1 := by omega
      simp [h1, show k ≠ k + 1 + d by omega, show k ≤ k + 1 + d by omega]
    · subst h; simp
    · simp [show ¬ k ≤ a by omega, show k ≠ a by omega, show ¬ k + 1 ≤ a by omega]

/-- After a result, byte `a` of `OUT` holds byte `a` of the result, and no value beyond it (R15, R32). -/
theorem outRead_outOfResult (bs : List Byte) (a : Nat) : outRead (outOfResult bs) a = bs[a]? := by
  simp [outOfResult, outRead_outCellsFrom]

@[simp] theorem outRead_outNone (a : Nat) : outRead outNone a = none := rfl

theorem outWfFrom_outCellsFrom (bs : List Byte) : ∀ k : Nat, k + bs.length ≤ outBytes →
    outWfFrom k (outCellsFrom k bs) = true := by
  induction bs with
  | nil => intro k _; rfl
  | cons b bs ih =>
    intro k h
    simp only [List.length_cons] at h
    simp [outCellsFrom, outWfFrom, ih (k + 1) (by omega), show k < outBytes by omega]

/-- Writing a result of at most 64 bytes leaves the buffer in canonical form. -/
theorem outWf_outOfResult {bs : List Byte} (h : bs.length ≤ outBytes) : outWf (outOfResult bs) = true :=
  outWfFrom_outCellsFrom bs 0 (by omega)

/-- Emptying the buffer leaves it in canonical form. -/
theorem outWf_outNone : outWf outNone = true := rfl

/-- The buffer after reset is in canonical form. -/
theorem outWf_reset : outWf State.reset.out = true := rfl

theorem map_fst_outCellsFrom (bs : List Byte) : ∀ k : Nat,
    (outCellsFrom k bs).map Prod.fst = List.range' k bs.length := by
  induction bs with
  | nil => intro k; rfl
  | cons b bs ih => intro k; simp [outCellsFrom, ih, List.range'_succ]

/-- The offsets that hold a value after a result are exactly those below its length. -/
theorem map_fst_outOfResult (bs : List Byte) : (outOfResult bs).map Prod.fst = List.range bs.length := by
  simp [outOfResult, map_fst_outCellsFrom, List.range_eq_range']

/-- The payload passes the length check exactly when it has the required length. -/
theorem checkedPayload_none {n : Nat} {p : List Byte} (h : p.length ≠ n) : checkedPayload n p = none := by
  simp [checkedPayload, h]

theorem checkedPayload_some {n : Nat} {p : List Byte} (h : p.length = n) :
    checkedPayload n p = some ⟨p.toArray, by simp [h]⟩ := by
  simp [checkedPayload, h]

/-- Everything `runCommand` can do: an InvalidLength completion, a completion by an error `f` finds, or a result. -/
theorem runCommand_cases {n m : Nat} (f : Vector Byte n → Except Err (Vector Byte m)) (p : List Byte) (s : State) :
    (p.length ≠ n ∧ runCommand f p s = .next (raiseError .invalidLength s)) ∨
    (∃ h : p.length = n, ∃ e, f ⟨p.toArray, by simp [h]⟩ = .error e ∧ runCommand f p s = .next (raiseError e s)) ∨
    (∃ h : p.length = n, ∃ r, f ⟨p.toArray, by simp [h]⟩ = .ok r ∧ runCommand f p s = .next (resultComplete r s)) := by
  by_cases h : p.length = n
  · right
    rcases hf : f ⟨p.toArray, by simp [h]⟩ with e | r
    · exact .inl ⟨h, e, hf, by simp [runCommand, checkedPayload_some h, hf]⟩
    · exact .inr ⟨h, r, hf, by simp [runCommand, checkedPayload_some h, hf]⟩
  · exact .inl ⟨h, by simp [runCommand, checkedPayload_none h]⟩

/-- A command always completes (R128). -/
theorem runCommand_next {n m : Nat} (f : Vector Byte n → Except Err (Vector Byte m)) (p : List Byte) (s : State) :
    ∃ t, runCommand f p s = .next t := by
  rcases runCommand_cases f p s with ⟨_, h⟩ | ⟨_, _, _, h⟩ | ⟨_, _, _, h⟩ <;> exact ⟨_, h⟩

end Sys2Proof.Machine
end

