-- ==== Sys2Proof/Laws/PerInstr.lean ====
section
/-! SUPPORT. The family `Select`: for every command, the opcode map reads its own command word back (R55, R64). -/

namespace Sys2Proof.Laws

/-- The slices of four parts put side by side give the parts back. -/
theorem parts_slices (bm : BitVec 2) (op : BitVec 3) (len : BitVec 8) :
    ((0 : BitVec 3) ++ bm ++ op ++ len).extractLsb' 13 3 = 0 ∧
    ((0 : BitVec 3) ++ bm ++ op ++ len).extractLsb' 11 2 = bm ∧
    ((0 : BitVec 3) ++ bm ++ op ++ len).extractLsb' 8 3 = op ∧
    ((0 : BitVec 3) ++ bm ++ op ++ len).extractLsb' 0 8 = len := by
  refine ⟨?_, ?_, ?_, ?_⟩ <;> ext k hk <;>
    simp only [BitVec.getElem_extractLsb', BitVec.getLsbD_append] <;> interval_cases k <;>
    simp [BitVec.getLsbD_eq_getElem]

/-- The fields of a command word made of its four fields (R51). -/
theorem word_fields (bm : BitVec 2) (op : BitVec 3) (len : BitVec 8) :
    CmdWord.rsv ((0 : BitVec 3) ++ bm ++ op ++ len) = 0 ∧ CmdWord.bm ((0 : BitVec 3) ++ bm ++ op ++ len) = bm ∧
    CmdWord.op ((0 : BitVec 3) ++ bm ++ op ++ len) = op ∧ CmdWord.len ((0 : BitVec 3) ++ bm ++ op ++ len) = len :=
  parts_slices bm op len

/-- The opcode map gives a command for its own word. -/
def Select.Statement (i : Instr) : Prop := i.word.select i.payload = .ok i

/-- The map on a word made of its fields. -/
theorem select_word (bm : BitVec 2) (op : BitVec 3) (len : BitVec 8) (p : List Byte) :
    CmdWord.select ((0 : BitVec 3) ++ bm ++ op ++ len) p =
      if op = 0 ∨ op = 7 then .error .reservedOpcode
      else if op ≠ 6 ∧ bm ≠ 0 then .error .blueModeNotZero
      else if op = 1 then .ok (.palgen p)
      else if op = 2 then .ok (.pack p)
      else if op = 3 then .ok (.unpack p)
      else if op = 4 then .ok (.quant p)
      else if op = 5 then .ok (.compress p)
      else if bm = 0 then .ok (.decompressZ p)
      else if bm = 1 then .ok (.decompressO p)
      else if bm = 2 then .ok (.decompressN p)
      else .ok (.decompressR p) := by
  obtain ⟨h1, h2, h3, _⟩ := word_fields bm op len
  simp only [CmdWord.select, h1, h2, h3, ne_eq, not_true_eq_false, if_false]

theorem Select.palgen (p : List Byte) : Select.Statement (.palgen p) := select_word 0 1 _ p
theorem Select.pack (p : List Byte) : Select.Statement (.pack p) := select_word 0 2 _ p
theorem Select.unpack (p : List Byte) : Select.Statement (.unpack p) := select_word 0 3 _ p
theorem Select.quant (p : List Byte) : Select.Statement (.quant p) := select_word 0 4 _ p
theorem Select.compress (p : List Byte) : Select.Statement (.compress p) := select_word 0 5 _ p
theorem Select.decompressZ (p : List Byte) : Select.Statement (.decompressZ p) := select_word 0 6 _ p
theorem Select.decompressO (p : List Byte) : Select.Statement (.decompressO p) := select_word 1 6 _ p
theorem Select.decompressN (p : List Byte) : Select.Statement (.decompressN p) := select_word 2 6 _ p
theorem Select.decompressR (p : List Byte) : Select.Statement (.decompressR p) := select_word 3 6 _ p

end Sys2Proof.Laws
end

