-- ==== Sys2Proof/Laws/Units.lean ====
section
/-! SUPPORT. What each function of the four units does, said once: the integer root, NEAREST, MINMAX, the palette,
the packer's two directions. -/

open Sys2Proof.Claims

namespace Sys2Proof.Machine

/-- The bits still to decide keep the root between `acc` and `acc + 2^k`. -/
theorem isqrtFrom_spec (n : Nat) : ∀ k acc : Nat, acc * acc ≤ n → n < (acc + 2 ^ k) * (acc + 2 ^ k) →
    isqrtFrom n k acc * isqrtFrom n k acc ≤ n ∧ n < (isqrtFrom n k acc + 1) * (isqrtFrom n k acc + 1) := by
  intro k
  induction k with
  | zero => intro acc h1 h2; simpa [isqrtFrom] using ⟨h1, h2⟩
  | succ k ih =>
    intro acc h1 h2
    simp only [isqrtFrom]
    split
    · rename_i h
      refine ih _ h ?_
      rwa [add_assoc, ← two_mul, ← pow_succ']
    · rename_i h
      exact ih _ h1 (by omega)

/-- `isqrt` is the integer square root (R7). -/
theorem isqrt_eq_sqrt (n : Nat) : isqrt n = Nat.sqrt n := by
  have hn : n < (0 + 2 ^ (Nat.log2 n / 2 + 1)) * (0 + 2 ^ (Nat.log2 n / 2 + 1)) := by
    rw [zero_add, ← pow_add]
    refine lt_of_lt_of_le Nat.lt_log2_self (Nat.pow_le_pow_right (by norm_num) (by omega))
  obtain ⟨h1, h2⟩ := isqrtFrom_spec n _ 0 (by omega) hn
  exact ((Nat.eq_sqrt).2 ⟨h1, h2⟩)

/-- The loop of R92 over indices `ks` after those of `done`: the best so far stays the lowest nearest. -/
theorem consider_foldl_spec (s : Nat) (p : Palette) : ∀ (ks done : List Index) (b : Best),
    b.dist = distance s (p.numerator b.idx) → (∀ j ∈ done, b.dist ≤ distance s (p.numerator j)) →
    (∀ j ∈ done, j.toNat < b.idx.toNat → b.dist < distance s (p.numerator j)) → 
    (done ++ ks).Pairwise (fun a c => a.toNat < c.toNat) → b.idx ∈ done →
    let r := ks.foldl (Best.consider s p) b
    r.dist = distance s (p.numerator r.idx) ∧ ∀ j ∈ done ++ ks, r.dist ≤ distance s (p.numerator j) ∧
      (j.toNat < r.idx.toNat → r.dist < distance s (p.numerator j)) := by
  intro ks
  induction ks with
  | nil => intro done b h0 h1 h2 _ _; simpa using ⟨h0, fun j hj => ⟨h1 j hj, h2 j hj⟩⟩
  | cons k ks ih =>
    intro done b h0 h1 h2 h3 h4
    simp only [List.foldl_cons]
    have h3' : ((done ++ [k]) ++ ks).Pairwise (fun a c => a.toNat < c.toNat) := by simpa using h3
    have hlt : ∀ j ∈ done, j.toNat < k.toNat := fun j hj => (List.pairwise_append.1 h3).2.2 j hj k (by simp)
    rw [show done ++ k :: ks = (done ++ [k]) ++ ks by simp]
    by_cases hd : distance s (p.numerator k) < b.dist
    · have : b.consider s p k = { idx := k, dist := distance s (p.numerator k) } := by simp [Best.consider, hd]
      rw [this]
      refine ih _ _ rfl ?_ ?_ h3' (by simp)
      · intro j hj
        rcases List.mem_append.1 hj with hj | hj
        · exact le_of_lt (lt_of_lt_of_le hd (h1 j hj))
        · simp only [List.mem_singleton] at hj; subst hj; exact le_refl _
      · intro j hj hjk
        rcases List.mem_append.1 hj with hj | hj
        · exact lt_of_lt_of_le hd (h1 j hj)
        · simp only [List.mem_singleton] at hj; subst hj; exact absurd hjk (lt_irrefl _)
    · have : b.consider s p k = b := by simp [Best.consider, hd]
      rw [this]
      refine ih _ _ h0 ?_ ?_ h3' (by simp [h4])
      · intro j hj
        rcases List.mem_append.1 hj with hj | hj
        · exact h1 j hj
        · simp only [List.mem_singleton] at hj; subst hj; omega
      · intro j hj hjk
        rcases List.mem_append.1 hj with hj | hj
        · exact h2 j hj hjk
        · simp only [List.mem_singleton] at hj; subst hj
          have := hlt _ h4; omega

/-- The index NEAREST gives is nearest, and strictly nearer than every lower index (R92, R93). -/
theorem nearest_spec (p : Palette) (x : Byte) (j : Index) :
    distance (p.den * x.toNat) (p.numerator (nearest p x)) ≤ distance (p.den * x.toNat) (p.numerator j) ∧
    (j.toNat < (nearest p x).toNat →
      distance (p.den * x.toNat) (p.numerator (nearest p x)) < distance (p.den * x.toNat) (p.numerator j)) := by
  have h := consider_foldl_spec (p.den * x.toNat) p [1, 2, 3, 4, 5, 6, 7] [0]
    { idx := 0, dist := distance (p.den * x.toNat) (p.numerator 0) } rfl (by simp) (by simp) (by decide) (by simp)
  have hj : j ∈ ([0] ++ [1, 2, 3, 4, 5, 6, 7] : List Index) := by revert j; decide
  obtain ⟨h0, h1⟩ := h
  have := h1 j hj
  rw [h0] at this
  exact this

/-- A running minimum is one of the bytes and at most each of them. -/
theorem foldl_minByte_spec (l : List Byte) : ∀ a : Byte,
    (l.foldl minByte a = a ∨ l.foldl minByte a ∈ l) ∧ (l.foldl minByte a).toNat ≤ a.toNat ∧
    ∀ b ∈ l, (l.foldl minByte a).toNat ≤ b.toNat := by
  induction l with
  | nil => intro a; simp
  | cons c l ih =>
    intro a
    obtain ⟨h1, h2, h3⟩ := ih (minByte a c)
    simp only [List.foldl_cons]
    have hm : (minByte a c = a ∨ minByte a c = c) ∧ (minByte a c).toNat ≤ a.toNat ∧ (minByte a c).toNat ≤ c.toNat := by
      unfold minByte; split <;> simp <;> omega
    refine ⟨?_, by omega, ?_⟩
    · rcases h1 with h1 | h1
      · rcases hm.1 with h | h
        · left; rw [h1, h]
        · right; rw [h1, h]; simp
      · right; simp [h1]
    · intro b hb
      rcases List.mem_cons.1 hb with rfl | hb
      · omega
      · exact h3 b hb

/-- A running maximum is one of the bytes and at least each of them. -/
theorem foldl_maxByte_spec (l : List Byte) : ∀ a : Byte,
    (l.foldl maxByte a = a ∨ l.foldl maxByte a ∈ l) ∧ a.toNat ≤ (l.foldl maxByte a).toNat ∧
    ∀ b ∈ l, b.toNat ≤ (l.foldl maxByte a).toNat := by
  induction l with
  | nil => intro a; simp
  | cons c l ih =>
    intro a
    obtain ⟨h1, h2, h3⟩ := ih (maxByte a c)
    simp only [List.foldl_cons]
    have hm : (maxByte a c = a ∨ maxByte a c = c) ∧ a.toNat ≤ (maxByte a c).toNat ∧ c.toNat ≤ (maxByte a c).toNat := by
      unfold maxByte; split <;> simp <;> omega
    refine ⟨?_, by omega, ?_⟩
    · rcases h1 with h1 | h1
      · rcases hm.1 with h | h
        · left; rw [h1, h]
        · right; rw [h1, h]; simp
      · right; simp [h1]
    · intro b hb
      rcases List.mem_cons.1 hb with rfl | hb
      · omega
      · exact h3 b hb

/-- `MINMAX(s).lo` is a sample and at most every sample (R102). -/
theorem lowest_spec (s : Vector Byte 16) :
    (∃ i : Fin 16, lowest s = s[i]) ∧ ∀ i : Fin 16, (lowest s).toNat ≤ s[i].toNat := by
  obtain ⟨h1, h2, h3⟩ := foldl_minByte_spec s.toList s[0]
  refine ⟨?_, fun i => h3 _ (by simp)⟩
  rcases h1 with h | h
  · exact ⟨0, h⟩
  · obtain ⟨i, hi, he⟩ := List.getElem_of_mem h
    exact ⟨⟨i, by simpa using hi⟩, by simpa [lowest] using he.symm⟩

/-- `MINMAX(s).hi` is a sample and at least every sample (R102). -/
theorem highest_spec (s : Vector Byte 16) :
    (∃ i : Fin 16, highest s = s[i]) ∧ ∀ i : Fin 16, s[i].toNat ≤ (highest s).toNat := by
  obtain ⟨h1, h2, h3⟩ := foldl_maxByte_spec s.toList s[0]
  refine ⟨?_, fun i => h3 _ (by simp)⟩
  rcases h1 with h | h
  · exact ⟨0, h⟩
  · obtain ⟨i, hi, he⟩ := List.getElem_of_mem h
    exact ⟨⟨i, by simpa using hi⟩, by simpa [highest] using he.symm⟩

/-- The denominator of a palette (R72). -/
theorem pal_den (e0 e1 : Byte) : (pal e0 e1).den = denOf e0.toNat e1.toNat := by
  unfold pal denOf; split <;> rfl

/-- The numerators of a palette by the closed forms of R73 and R74. -/
theorem pal_numerator (e0 e1 : Byte) (k : Index) : (pal e0 e1).numerator k = palnOf e0.toNat e1.toNat k.toNat := by
  obtain ⟨k, rfl⟩ : ∃ i : Fin 8, k = BitVec.ofFin i := ⟨k.toFin, rfl⟩
  unfold pal palnOf Palette.numerator
  split <;> fin_cases k <;> simp [paletteOf, standardNumerators, degenerateNumerators]

/-- The bytes of a palette (R75). -/
theorem pal_byte (e0 e1 : Byte) (k : Index) :
    (pal e0 e1).byte k = BitVec.ofNat 8 ((pal e0 e1).numerator k / (pal e0 e1).den) := by
  unfold pal Palette.byte Palette.numerator
  split <;> simp [paletteOf, denormByte]

/-- Concatenation as arithmetic. -/
theorem toNat_append_add {w v : Nat} (x : BitVec w) (y : BitVec v) : (x ++ y).toNat = x.toNat * 2 ^ v + y.toNat := by
  rw [BitVec.toNat_append, ← Nat.shiftLeft_add_eq_or_of_lt y.isLt, Nat.shiftLeft_eq]

/-- The field as the number whose base-8 digits are the indices (R81). -/
theorem packField_toNat (idx : Vector Index 16) :
    (packField idx).toNat =
      idx[0].toNat * 1 + idx[1].toNat * 8 + idx[2].toNat * 64 + idx[3].toNat * 512 +
      idx[4].toNat * 4096 + idx[5].toNat * 32768 + idx[6].toNat * 262144 + idx[7].toNat * 2097152 +
      idx[8].toNat * 16777216 + idx[9].toNat * 134217728 + idx[10].toNat * 1073741824 + idx[11].toNat * 8589934592 +
      idx[12].toNat * 68719476736 + idx[13].toNat * 549755813888 + idx[14].toNat * 4398046511104 + idx[15].toNat * 35184372088832 := by
  unfold packField
  rw [toNat_append_add, toNat_append_add, toNat_append_add, toNat_append_add, toNat_append_add, toNat_append_add,
    toNat_append_add, toNat_append_add, toNat_append_add, toNat_append_add, toNat_append_add, toNat_append_add,
    toNat_append_add, toNat_append_add, toNat_append_add]
  omega

/-- The field of six bytes as a big-endian number (R40). -/
theorem fieldOfBytes_toNat (b : Vector Byte 6) :
    (fieldOfBytes b).toNat = b[0].toNat * 1099511627776 + b[1].toNat * 4294967296 + b[2].toNat * 16777216 +
      b[3].toNat * 65536 + b[4].toNat * 256 + b[5].toNat := by
  unfold fieldOfBytes
  rw [toNat_append_add, toNat_append_add, toNat_append_add, toNat_append_add, toNat_append_add]
  omega

/-- Byte `j` of a field (R83). -/
theorem fieldBytes_toNat (v : IndexField) (j : Fin 6) :
    ((fieldBytes v)[j]).toNat = v.toNat / 256 ^ (5 - j.val) % 256 := by
  fin_cases j <;> simp [fieldBytes, BitVec.extractLsb'_toNat, Nat.shiftRight_eq_div_pow]

/-- Index `i` of a field (R86). -/
theorem unpackField_toNat (v : IndexField) (i : Fin 16) :
    ((unpackField v)[i]).toNat = v.toNat / 8 ^ i.val % 8 := by
  fin_cases i <;> simp [unpackField, BitVec.extractLsb'_toNat, Nat.shiftRight_eq_div_pow]

end Sys2Proof.Machine
end

