-- ==== Sys2Proof/Laws/Step.lean ====
section
/-! SUPPORT. What decoding, executing and stepping can do, said once each. -/

namespace Sys2Proof.Machine

/-- Everything a command can do: end by error completion, or complete with a result of 6, 16, 25 or 64 bytes. -/
theorem exec_cases (i : Instr) (s : State) :
    (∃ e, exec i s = .next (raiseError e s)) ∨
    (∃ (m : Nat) (r : Vector Byte m), m ∈ [6, 16, 25, 64] ∧ exec i s = .next (resultComplete r s)) := by
  have key : ∀ {n m : Nat} (f : Vector Byte n → Except Err (Vector Byte m)) (p : List Byte), m ∈ [6, 16, 25, 64] →
      (∃ e, runCommand f p s = .next (raiseError e s)) ∨
      (∃ (m : Nat) (r : Vector Byte m), m ∈ [6, 16, 25, 64] ∧ runCommand f p s = .next (resultComplete r s)) := by
    intro n m f p hm
    rcases runCommand_cases f p s with ⟨_, h⟩ | ⟨_, e, _, h⟩ | ⟨_, r, _, h⟩
    · exact .inl ⟨_, h⟩
    · exact .inl ⟨_, h⟩
    · exact .inr ⟨m, r, hm, h⟩
  cases i
  · exact key palgenResult _ (by decide)
  · exact key packResult _ (by decide)
  · exact key unpackResult _ (by decide)
  · exact key quantResult _ (by decide)
  · exact key compressResult _ (by decide)
  · exact key (decompressResult .alwaysZero s.blueSel) _ (by decide)
  · exact key (decompressResult .alwaysOne s.blueSel) _ (by decide)
  · exact key (decompressResult .computeNormalZ s.blueSel) _ (by decide)
  · exact key (decompressResult .copyRed s.blueSel) _ (by decide)

/-- A step by what stands at the head of the stream. -/
theorem step_of_decode (s : State) : step s = match decode s.stream with
    | .incomplete => .fault .awaitingFrame
    | .illegal _ rest => .next (raiseError .illegalCommand (consumeFrame rest s))
    | .command i rest => exec i (consumeFrame rest s) := rfl

/-- Everything a completed step can have been: a reserved word, or the execution of the decoded command. -/
theorem step_cases {s t : State} (h : step s = .next t) :
    (∃ why rest, decode s.stream = .illegal why rest ∧ t = raiseError .illegalCommand (consumeFrame rest s)) ∨
    (∃ i rest, decode s.stream = .command i rest ∧ exec i (consumeFrame rest s) = .next t) := by
  rw [step_of_decode] at h
  rcases hd : decode s.stream with _ | ⟨why, rest⟩ | ⟨i, rest⟩ <;> rw [hd] at h
  · cases h
  · injection h with h; exact .inl ⟨why, rest, rfl, h.symm⟩
  · exact .inr ⟨i, rest, rfl, h⟩

/-- Error completion leaves the result registers consistent. -/
theorem raiseError_consistent (e : Err) (s : State) : (raiseError e s).Consistent := by
  refine ⟨rfl, rfl, by simp, by cases e <;> simp [Err.code], by simp⟩

/-- A result leaves the result registers consistent. -/
theorem resultComplete_consistent {m : Nat} (r : Vector Byte m) (hm : m ∈ [6, 16, 25, 64]) (s : State) :
    (resultComplete r s).Consistent := by
  have hlt : m < 128 := by simp at hm; omega
  have h64 : m ≤ outBytes := by simp at hm; unfold outBytes; omega
  refine ⟨outWf_outOfResult (by simpa using h64), ?_, ?_, by simp [okCode], by simp [okCode]⟩
  · simp [map_fst_outOfResult, Nat.mod_eq_of_lt hlt]
  · simp [Nat.mod_eq_of_lt hlt]; simp at hm; omega

/-- After an error no byte of `OUT` can be read (R15, R127). -/
theorem hostReadOut_raiseError (e : Err) (s : State) {a : Nat} (h : a < 64) :
    hostReadOut (raiseError e s) a = .error .outHoldsNoValue := by
  simp [hostReadOut, show a < outBytes from h]

/-- What the host reads after an error completion. -/
theorem raiseError_shows (e : Err) (s : State) : (raiseError e s).ShowsError ((0 : BitVec 5) ++ e.code) :=
  ⟨rfl, rfl, fun _ h => hostReadOut_raiseError e s h⟩

/-- What the host reads after a result. -/
theorem resultComplete_shows {m : Nat} (r : Vector Byte m) (hm : m ≤ 64) (s : State) : (resultComplete r s).Shows r.toList := by
  refine ⟨by simp [hostReadStatus, Status.word, okCode], by simp [hostReadOutLen]; omega, fun a h => ?_⟩
  rcases hr : r.toList[a]? with _ | b <;>
    simp only [hostReadOut, show a < outBytes from h, if_true, resultComplete_out, outRead_outOfResult, hr]

/-- The command word of two stream bytes, big-endian (R52). -/
theorem cmdWord_toNat (hi lo : Byte) : BitVec.toNat (w := 16) (hi ++ lo) = hi.toNat * 256 + lo.toNat :=
  toNat_append_add hi lo

/-- The opcode map by the first byte of the frame (R55 to R58). -/
theorem select_eq (hi lo : Byte) (p : List Byte) : CmdWord.select (hi ++ lo) p =
   (if hi.toNat = 1 then .ok (.palgen p)
      else if hi.toNat = 2 then .ok (.pack p)
      else if hi.toNat = 3 then .ok (.unpack p)
      else if hi.toNat = 4 then .ok (.quant p)
      else if hi.toNat = 5 then .ok (.compress p)
      else if hi.toNat = 6 then .ok (.decompressZ p)
      else if hi.toNat = 14 then .ok (.decompressO p)
      else if hi.toNat = 22 then .ok (.decompressN p)
      else if hi.toNat = 30 then .ok (.decompressR p)
      else if hi.toNat / 32 ≠ 0 then .error .reservedBits
      else if hi.toNat % 8 = 0 ∨ hi.toNat % 8 = 7 then .error .reservedOpcode
      else .error .blueModeNotZero) := by
  have hw := cmdWord_toNat hi lo
  have := hi.isLt
  have := lo.isLt
  have h1 : CmdWord.rsv (hi ++ lo) = BitVec.ofNat 3 (hi.toNat / 32) := by
    apply BitVec.eq_of_toNat_eq
    simp only [CmdWord.rsv, BitVec.extractLsb'_toNat, Nat.shiftRight_eq_div_pow, hw, BitVec.toNat_ofNat]
    omega
  have h2 : CmdWord.op (hi ++ lo) = BitVec.ofNat 3 (hi.toNat) := by
    apply BitVec.eq_of_toNat_eq
    simp only [CmdWord.op, BitVec.extractLsb'_toNat, Nat.shiftRight_eq_div_pow, hw, BitVec.toNat_ofNat]
    omega
  have h3 : CmdWord.bm (hi ++ lo) = BitVec.ofNat 2 (hi.toNat / 8) := by
    apply BitVec.eq_of_toNat_eq
    simp only [CmdWord.bm, BitVec.extractLsb'_toNat, Nat.shiftRight_eq_div_pow, hw, BitVec.toNat_ofNat]
    omega
  unfold CmdWord.select
  rw [h1, h2, h3]
  clear h1 h2 h3 hw this
  have hlt := hi.isLt
  generalize hi.toNat = n at *
  interval_cases n <;> rfl

/-- `LEN` is the second byte of the frame (R52). -/
theorem len_eq (hi lo : Byte) : CmdWord.len (hi ++ lo) = lo := by
  apply BitVec.eq_of_toNat_eq
  have := hi.isLt
  have := lo.isLt
  simp only [CmdWord.len, BitVec.extractLsb'_toNat, Nat.shiftRight_eq_div_pow, cmdWord_toNat]
  omega

/-- A whole frame decodes by its word, with its payload taken off the stream (R59). -/
theorem decode_frame (hi lo : Byte) (p rest : List Byte) (h : p.length = lo.toNat) :
    decode (hi :: lo :: (p ++ rest)) = match CmdWord.select (hi ++ lo) p with
      | .error why => .illegal why rest
      | .ok i => .command i rest := by
  rcases hs : CmdWord.select (hi ++ lo) p with _ | _ <;> simp [decode, len_eq, ← h, hs]

end Sys2Proof.Machine
end

