-- ==== Sys2Proof/Tests/Slice0.lean ====
section
/-! SUPPORT. Tests: expected results are the vectors of spec/95_test_vectors.md or words written out from R55; and
for every statement with hypotheses a named witness that meets them. -/

open Sys2Proof.Machine Sys2Proof.Claims

namespace Sys2Proof.Tests

/-- A core to which the host has delivered `bytes`, after reset. -/
def testCore (bytes : List Byte) : State := { State.reset with stream := bytes }

/-- A core in a state no run reaches: an old result of three bytes at odd places, `OUTLEN = 99`, `ERR = 5`. -/
def oddCore (bytes : List Byte) : State :=
  { out := [(3, 1), (7, 2), (80, 3)], outLen := 99, status := { err := 5 }, stream := bytes, blueSel := 4 }

/-- What the host sees of a completed step: `ERR`, `OUTLEN`, the bytes of `OUT` that hold a value, and what is left
of the stream. -/
def seen : Host.Outcome State Fault Refusal → Option (Nat × Nat × List Byte × List Byte)
  | .next t => some ((hostReadStatus t).toNat, (hostReadOutLen t).toNat, t.out.map Prod.snd, t.stream)
  | _ => none

/-- The state of a completed step. -/
def after : Host.Outcome State Fault Refusal → State
  | .next t => t
  | _ => State.reset

/-- The only byte of `OUT` at an offset, where it holds a value. -/
def outAt (o : Host.Outcome State Fault Refusal) (a : Nat) : Option Byte :=
  match o with
  | .next t => outRead t.out a
  | _ => none

set_option maxRecDepth 20000

/-! ## Well-formedness, decoding, encoding -/

/-- 255 payload bytes fit `LEN`; 256 do not (R53). -/
theorem test_wellFormed_limit :
    (Instr.palgen (List.replicate 255 0)).WellFormed ∧ ¬ (Instr.palgen (List.replicate 256 0)).WellFormed := by decide

/-- The check refuses a payload of 300 bytes for any command that carries it. -/
theorem test_wellFormed_refuses : ¬ (Instr.decompressR (List.replicate 300 7)).WellFormed := by decide

/-- `RSV = 000`, `BM = 00`, `OP = 001`, `LEN = 2` (R51, R55). -/
theorem test_decode_palgen : decode (0b00000001 :: 0b00000010 :: List.replicate 2 3 ++ [9]) =
    .command (.palgen (List.replicate 2 3)) [9] := by decide

/-- `RSV = 000`, `BM = 00`, `OP = 010`, `LEN = 16` (R51, R55). -/
theorem test_decode_pack : decode (0b00000010 :: 0b00010000 :: List.replicate 16 3 ++ [9]) =
    .command (.pack (List.replicate 16 3)) [9] := by decide

/-- `RSV = 000`, `BM = 00`, `OP = 011`, `LEN = 6` (R51, R55). -/
theorem test_decode_unpack : decode (0b00000011 :: 0b00000110 :: List.replicate 6 3 ++ [9]) =
    .command (.unpack (List.replicate 6 3)) [9] := by decide

/-- `RSV = 000`, `BM = 00`, `OP = 100`, `LEN = 18` (R51, R55). -/
theorem test_decode_quant : decode (0b00000100 :: 0b00010010 :: List.replicate 18 3 ++ [9]) =
    .command (.quant (List.replicate 18 3)) [9] := by decide

/-- `RSV = 000`, `BM = 00`, `OP = 101`, `LEN = 64` (R51, R55). -/
theorem test_decode_compress : decode (0b00000101 :: 0b01000000 :: List.replicate 64 3 ++ [9]) =
    .command (.compress (List.replicate 64 3)) [9] := by decide

/-- `RSV = 000`, `BM = 00`, `OP = 110`, `LEN = 16` (R51, R55). -/
theorem test_decode_decompressZ : decode (0b00000110 :: 0b00010000 :: List.replicate 16 3 ++ [9]) =
    .command (.decompressZ (List.replicate 16 3)) [9] := by decide

/-- `RSV = 000`, `BM = 01`, `OP = 110`, `LEN = 16` (R51, R55). -/
theorem test_decode_decompressO : decode (0b00001110 :: 0b00010000 :: List.replicate 16 3 ++ [9]) =
    .command (.decompressO (List.replicate 16 3)) [9] := by decide

/-- `RSV = 000`, `BM = 10`, `OP = 110`, `LEN = 16` (R51, R55). -/
theorem test_decode_decompressN : decode (0b00010110 :: 0b00010000 :: List.replicate 16 3 ++ [9]) =
    .command (.decompressN (List.replicate 16 3)) [9] := by decide

/-- `RSV = 000`, `BM = 11`, `OP = 110`, `LEN = 16` (R51, R55). -/
theorem test_decode_decompressR : decode (0b00011110 :: 0b00010000 :: List.replicate 16 3 ++ [9]) =
    .command (.decompressR (List.replicate 16 3)) [9] := by decide

/-- Reserved words, each by the rule that makes it so: `RSV`, `OP`, `BM` (R56, R57, R58). -/
theorem test_decode_reserved :
    decode [0x21, 2, 0x64, 0xC8] = .illegal .reservedBits [] ∧ decode [0x00, 0] = .illegal .reservedOpcode [] ∧
    decode [0x07, 1, 5] = .illegal .reservedOpcode [] ∧ decode [0x09, 2, 0x64, 0xC8, 1] = .illegal .blueModeNotZero [1] :=
  by decide

/-- The opcode table numbers the command word's bits 15 to 0, most significant byte first on the stream. -/
theorem test_decodeTableWord :
    decodeTableWord 16 0x0102 = some (.palgen [0, 0]) ∧
    decodeTableWord 32 0xC8640102 = some (.palgen [0x64, 0xC8]) ∧
    decodeTableWord 16 0x1610 = some (.decompressN (List.replicate 16 0)) ∧ decodeTableWord 16 0x0700 = none := by decide

/-- The first step after reset runs the word that was placed: PALGEN of (0, 0) (spec/95 section 2.1). -/
theorem test_withFetchWord : seen (step (State.reset.withFetchWord 16 0x0102)) =
    some (0, 25, [1, 0, 0, 0, 0, 0, 0, 0, 0, 0, 0, 0, 0, 0, 0, 4, 0xFB, 0, 0, 0, 0, 0, 0, 0, 0xFF], []) := by decide

/-! ## The commands, on vectors of spec/95 -/

/-- Section 2.1, endpoints 100, 200: the degenerate branch. -/
theorem test_palgen_degenerate : seen (step (testCore [0x01, 0x02, 0x64, 0xC8])) =
    some (0, 25, [0x01, 0x01, 0xF4, 0x03, 0xE8, 0x02, 0x58, 0x02, 0xBC, 0x03, 0x20, 0x03, 0x84, 0x00, 0x00, 0x04, 0xFB, 0x64, 0xC8, 0x78, 0x8C, 0xA0, 0xB4, 0x00, 0xFF], []) := by decide

/-- Section 2.1, endpoints 200, 100: the standard branch. -/
theorem test_palgen_standard : seen (step (testCore [0x01, 0x02, 0xC8, 0x64])) =
    some (0, 25, [0x00, 0x05, 0x78, 0x02, 0xBC, 0x05, 0x14, 0x04, 0xB0, 0x04, 0x4C, 0x03, 0xE8, 0x03, 0x84, 0x03, 0x20, 0xC8, 0x64, 0xB9, 0xAB, 0x9D, 0x8E, 0x80, 0x72], []) := by decide

/-- Section 2.2. -/
theorem test_pack : seen (step (testCore [0x02, 0x10, 0x05, 0x02, 0x07, 0x00, 0x01, 0x06, 0x03, 0x04, 0x04, 0x03, 0x06, 0x01, 0x00, 0x07, 0x02, 0x05])) =
    some (0, 6, [0xAB, 0x83, 0x9C, 0x8F, 0x11, 0xD5], []) := by decide

/-- Section 2.2: index 15 is 8. -/
theorem test_pack_range : seen (step (testCore [0x02, 0x10, 0x00, 0x00, 0x00, 0x00, 0x00, 0x00, 0x00, 0x00, 0x00, 0x00, 0x00, 0x00, 0x00, 0x00, 0x00, 0x08])) =
    some (3, 0, [], []) := by decide

/-- Section 2.3. -/
theorem test_unpack : seen (step (testCore [0x03, 0x06, 0x12, 0x34, 0x56, 0x78, 0x9A, 0xBC])) =
    some (0, 16, [0x04, 0x07, 0x02, 0x05, 0x01, 0x01, 0x06, 0x03, 0x06, 0x02, 0x01, 0x02, 0x03, 0x04, 0x04, 0x00], []) := by decide

/-- Section 2.3: seven bytes. -/
theorem test_unpack_length : seen (step (testCore [0x03, 0x07, 0x00, 0x00, 0x00, 0x00, 0x00, 0x00, 0x00])) =
    some (1, 0, [], []) := by decide

/-- Section 2.4: ties go to the lowest index; sentinels 6 and 7. -/
theorem test_quant_ties : seen (step (testCore [0x04, 0x12, 0x64, 0xC8, 0x64, 0x6D, 0x6E, 0x6F, 0x78, 0x82, 0x83, 0x96, 0xAA, 0xBE, 0xBF, 0xC8, 0x00, 0xFF, 0x31, 0xE4])) =
    some (0, 16, [0x00, 0x00, 0x00, 0x02, 0x02, 0x02, 0x03, 0x03, 0x04, 0x01, 0x01, 0x01, 0x06, 0x07, 0x06, 0x07], []) := by decide

/-- Section 2.4: the standard branch. -/
theorem test_quant_standard : seen (step (testCore [0x04, 0x12, 0xC8, 0x64, 0xC8, 0x64, 0xC1, 0xC0, 0x96, 0x8F, 0x8E, 0x00, 0xFF, 0x6B, 0x6C, 0xBA, 0xB9, 0x9D, 0x9E, 0x79])) =
    some (0, 16, [0x00, 0x01, 0x00, 0x02, 0x04, 0x05, 0x05, 0x01, 0x00, 0x01, 0x07, 0x02, 0x02, 0x04, 0x04, 0x07], []) := by decide

/-- Section 2.5, block `rand`, with blue 9 and alpha 255. -/
theorem test_compress : seen (step (testCore [0x05, 0x40, 0x25, 0x0C, 0x09, 0xFF, 0xC9, 0xF0, 0x09, 0xFF, 0x5A, 0x80, 0x09, 0xFF, 0x8F, 0x40, 0x09, 0xFF, 0x3C, 0xC8, 0x09, 0xFF, 0xBC, 0x21, 0x09, 0xFF, 0x78, 0x5A, 0x09, 0xFF, 0x4D, 0xB4, 0x09, 0xFF, 0x25, 0x0C, 0x09, 0xFF, 0xC9, 0xF0, 0x09, 0xFF, 0x9A, 0x64, 0x09, 0xFF, 0x63, 0x96, 0x09, 0xFF, 0xAD, 0x46, 0x09, 0xFF, 0x2D, 0xDC, 0x09, 0xFF, 0x6E, 0x0A, 0x09, 0xFF, 0x82, 0xFA, 0x09, 0xFF])) =
    some (0, 16, [0x25, 0xC9, 0x8C, 0x57, 0x48, 0x50, 0xA8, 0xC8, 0x0A, 0xFA, 0x22, 0xA8, 0xC8, 0xAC, 0x54, 0xC8], []) := by decide

/-- Section 2.5: the 32 bytes of a raw red and green list. -/
theorem test_compress_length : seen (step (testCore [0x05, 0x20, 0x25, 0xC9, 0x5A, 0x8F, 0x3C, 0xBC, 0x78, 0x4D, 0x25, 0xC9, 0x9A, 0x63, 0xAD, 0x2D, 0x6E, 0x82, 0x0C, 0xF0, 0x80, 0x40, 0xC8, 0x21, 0x5A, 0xB4, 0x0C, 0xF0, 0x64, 0x96, 0x46, 0xDC, 0x0A, 0xFA])) =
    some (1, 0, [], []) := by decide

/-- Section 2.6, block `rand` under `.z`. -/
theorem test_decompressZ : seen (step (testCore [0x06, 0x10, 0x25, 0xC9, 0x8C, 0x57, 0x48, 0x50, 0xA8, 0xC8, 0x0A, 0xFA, 0x22, 0xA8, 0xC8, 0xAC, 0x54, 0xC8])) =
    some (0, 64, [0x25, 0x0A, 0x00, 0x01, 0xC9, 0xFA, 0x00, 0x01, 0x66, 0x6A, 0x00, 0x01, 0x87, 0x3A, 0x00, 0x01, 0x45, 0xCA, 0x00, 0x01, 0xC9, 0x0A, 0x00, 0x01, 0x87, 0x6A, 0x00, 0x01, 0x45, 0xCA, 0x00, 0x01, 0x25, 0x0A, 0x00, 0x01, 0xC9, 0xFA, 0x00, 0x01, 0xA8, 0x6A, 0x00, 0x01, 0x66, 0x9A, 0x00, 0x01, 0xA8, 0x3A, 0x00, 0x01, 0x25, 0xCA, 0x00, 0x01, 0x66, 0x0A, 0x00, 0x01, 0x87, 0xFA, 0x00, 0x01], []) := by decide

/-- Section 2.6, block `std` under `.o`: sentinels in the green channel only. -/
theorem test_decompressO : seen (step (testCore [0x0E, 0x10, 0xC8, 0x64, 0x05, 0x39, 0x77, 0xFA, 0xC6, 0x88, 0x32, 0x32, 0xFA, 0xC6, 0x88, 0xFA, 0xC6, 0x88])) =
    some (0, 64, [0xC8, 0x32, 0xFF, 0x01, 0x64, 0x32, 0xFF, 0x01, 0xB9, 0x32, 0xFF, 0x01, 0xAB, 0x32, 0xFF, 0x01, 0x9D, 0x32, 0xFF, 0x01, 0x8E, 0x32, 0xFF, 0x01, 0x80, 0x00, 0xFF, 0x01, 0x72, 0xFF, 0xFF, 0x01, 0x72, 0x32, 0xFF, 0x01, 0x80, 0x32, 0xFF, 0x01, 0x8E, 0x32, 0xFF, 0x01, 0x9D, 0x32, 0xFF, 0x01, 0xAB, 0x32, 0xFF, 0x01, 0xB9, 0x32, 0xFF, 0x01, 0x64, 0x00, 0xFF, 0x01, 0xC8, 0xFF, 0xFF, 0x01], []) := by decide

/-- Section 2.6, block `twoval` under `.n`: no overflow. -/
theorem test_decompressN : seen (step (testCore [0x16, 0x10, 0x0A, 0xFA, 0x20, 0x82, 0x08, 0x20, 0x82, 0x08, 0x1E, 0x28, 0x24, 0x90, 0x00, 0x24, 0x90, 0x00])) =
    some (0, 64, [0x0A, 0x1E, 0xEC, 0x01, 0xFA, 0x1E, 0xE7, 0x01, 0x0A, 0x1E, 0xEC, 0x01, 0xFA, 0x1E, 0xE7, 0x01, 0x0A, 0x28, 0xE4, 0x01, 0xFA, 0x28, 0xDD, 0x01, 0x0A, 0x28, 0xE4, 0x01, 0xFA, 0x28, 0xDD, 0x01, 0x0A, 0x1E, 0xEC, 0x01, 0xFA, 0x1E, 0xE7, 0x01, 0x0A, 0x1E, 0xEC, 0x01, 0xFA, 0x1E, 0xE7, 0x01, 0x0A, 0x28, 0xE4, 0x01, 0xFA, 0x28, 0xDD, 0x01, 0x0A, 0x28, 0xE4, 0x01, 0xFA, 0x28, 0xDD, 0x01], []) := by decide

/-- Section 2.6, block `rand` under `.n`: pixel 0 has `v275`, open; pixel 2 has the blue byte FE. -/
theorem test_decompressN_overflow :
    outAt (step (oddCore [0x16, 0x10, 0x25, 0xC9, 0x8C, 0x57, 0x48, 0x50, 0xA8, 0xC8, 0x0A, 0xFA, 0x22, 0xA8, 0xC8, 0xAC, 0x54, 0xC8])) 2 = some (Config.blueOvf 4 275) ∧
    outAt (step (oddCore [0x16, 0x10, 0x25, 0xC9, 0x8C, 0x57, 0x48, 0x50, 0xA8, 0xC8, 0x0A, 0xFA, 0x22, 0xA8, 0xC8, 0xAC, 0x54, 0xC8])) 10 = some 0xFE := ⟨rfl, rfl⟩

/-- Section 2.6, block `rand` under `.r`. -/
theorem test_decompressR : seen (step (testCore [0x1E, 0x10, 0x25, 0xC9, 0x8C, 0x57, 0x48, 0x50, 0xA8, 0xC8, 0x0A, 0xFA, 0x22, 0xA8, 0xC8, 0xAC, 0x54, 0xC8])) =
    some (0, 64, [0x25, 0x0A, 0x25, 0x01, 0xC9, 0xFA, 0xC9, 0x01, 0x66, 0x6A, 0x66, 0x01, 0x87, 0x3A, 0x87, 0x01, 0x45, 0xCA, 0x45, 0x01, 0xC9, 0x0A, 0xC9, 0x01, 0x87, 0x6A, 0x87, 0x01, 0x45, 0xCA, 0x45, 0x01, 0x25, 0x0A, 0x25, 0x01, 0xC9, 0xFA, 0xC9, 0x01, 0xA8, 0x6A, 0xA8, 0x01, 0x66, 0x9A, 0x66, 0x01, 0xA8, 0x3A, 0xA8, 0x01, 0x25, 0xCA, 0x25, 0x01, 0x66, 0x0A, 0x66, 0x01, 0x87, 0xFA, 0x87, 0x01], []) := by decide

/-- Section 2.7: illegal wins over length and range; the frame is consumed and what follows is left (R59, R126). -/
theorem test_illegal_first : seen (step (oddCore [0x0A, 5, 9, 9, 9, 9, 9, 3])) = some (2, 0, [], [3]) := by decide

/-- R149: no step while a byte of the frame is missing. -/
theorem test_awaits_frame : step (testCore [1, 2, 100]) = .fault .awaitingFrame := rfl

/-- R15, R145: a shorter result leaves no byte of the longer one; a byte with no value and a byte that does not exist
are refused (U3). -/
theorem test_host_reads :
    let s := after (step (oddCore [2, 16, 1, 0, 0, 0, 0, 0, 0, 0, 0, 0, 0, 0, 0, 0, 0, 0]))
    hostReadOut s 5 = .ok 1 ∧ hostReadOut s 6 = .error .outHoldsNoValue ∧ hostReadOut s 64 = .error .noSuchOutByte ∧
    hostReadErr s = .ok none ∧ hostReadErr (oddCore []) = .error .unassignedErrCode := by decide

/-! ## The assembler -/

/-- R60 to R63 on a text: comments, empty lines, both number bases, the default suffix, `.cmd`. -/
theorem test_assembleText : assembleText "PALGEN 200, 100 ; standard\n\n  UNPACK 0x12, 0x34\nDECOMPRESS 1\n.cmd 0x0A02, 9, 0xfF".toList =
    .ok [1, 2, 200, 100, 3, 2, 0x12, 0x34, 6, 1, 1, 0x0A, 2, 9, 255] := by decide

/-- Lines that are rejected (R60, R61, R63). -/
theorem test_assembleText_rejects :
    assembleText "PACK.z 1".toList = .error .suffixNotAllowed ∧ assembleText "PALGEN 256".toList = .error .operandNotAByte ∧
    assembleText ".cmd 0x0102, 1".toList = .error .operandCountNotLen ∧ assembleText "NOP".toList = .error .unknownMnemonic ∧
    assembleText "PALGEN ten".toList = .error .notANumber := by decide

/-! ## Witnesses: the hypotheses of each statement can be met -/

theorem witness_DecodeEncodeRoundTrip :
    (Instr.quant []).WellFormed ∧ (Instr.compress (List.replicate 255 1)).WellFormed := by decide

theorem witness_DecodedFrameIsItsEncoding : decode [0x1E, 1, 5, 6] = .command (.decompressR [5]) [6] := by decide

/-- A first byte of each clause, with a payload of the length `lo` names; 0 and 255 are the boundary lengths. -/
theorem witness_EveryWordIsOneOfNineOrIllegal :
    ([] : List Byte).length = (0 : Byte).toNat ∧ (List.replicate 255 (1 : Byte)).length = (255 : Byte).toNat ∧
    (∀ n ∈ [1, 2, 3, 4, 5, 6, 14, 22, 30, 32, 255, 0, 7, 9, 29], (BitVec.ofNat 8 n).toNat = n) ∧
    ∀ n ∈ [0, 7, 8, 9, 29, 31, 32, 255], n ∉ [1, 2, 3, 4, 5, 6, 14, 22, 30] ∧
      (oddCore (BitVec.ofNat 8 n :: 1 :: ([8] ++ [4]))).stream = BitVec.ofNat 8 n :: 1 :: ([8] ++ [4]) := by decide

theorem witness_IncompleteFrameIsNotIssued :
    (testCore []).stream.length < 2 ∧ (testCore [1]).stream.length < 2 ∧
    ((testCore [1, 2, 3]).stream = 1 :: 2 :: [3] ∧ ([3] : List Byte).length < (2 : Byte).toNat) ∧
    step (testCore [1, 255]) = .fault .awaitingFrame := ⟨by decide, by decide, by decide, rfl⟩

theorem witness_FrameConsumedWhateverOutcome :
    (oddCore [0x21, 1, 5]).stream = 0x21 :: 1 :: [5] ∧ (1 : Byte).toNat ≤ ([5] : List Byte).length ∧
    (oddCore [1, 0, 4]).stream = 1 :: 0 :: [4] ∧ (0 : Byte).toNat ≤ ([4] : List Byte).length := by decide

theorem witness_StepRunsTheDecodedCommand : decode (oddCore [1, 2, 7, 9, 4]).stream = .command (.palgen [7, 9]) [4] := by
  decide

theorem witness_WholeFramesRunToTheEnd :
    let fs : List Frame := [⟨0, 1, [5]⟩, ⟨1, 2, [7, 9]⟩]
    (∀ f ∈ fs, f.Complete) ∧ (oddCore [0, 1, 5, 1, 2, 7, 9]).stream = framesBytes fs ++ [] ∧ 0 ≤ fs.length ∧ 2 ≤ fs.length ∧
    (oddCore [0, 1, 5, 1, 2, 7, 9, 3]).stream = framesBytes fs ++ [3] ∧
    (testCore []).stream = framesBytes [] ++ [] := by decide

/-- One byte short and one too many of each required length. -/
theorem witness_WrongLengthRaisesInvalidLength :
    ∀ n ∈ [2, 16, 6, 18, 64], (List.replicate (n - 1) (0 : Byte)).length ≠ n ∧
      (List.replicate (n + 1) (0 : Byte)).length ≠ n := by decide

theorem witness_IndexRangeExactlyFromPack :
    (([8] ++ List.replicate 15 0 : List Byte).length = 16 ∧ ∃ k < 16, 7 < byteAt ([8] ++ List.replicate 15 0) k) ∧
    ((List.replicate 15 0 ++ [255] : List Byte).length = 16 ∧ ∃ k < 16, 7 < byteAt (List.replicate 15 0 ++ [255]) k) ∧
    exec (.pack ([8] ++ List.replicate 15 0)) State.reset =
      .next (after (exec (.pack ([8] ++ List.replicate 15 0)) State.reset)) ∧
    hostReadStatus (after (exec (.pack ([8] ++ List.replicate 15 0)) State.reset)) = 3 :=
  ⟨by decide, by decide, rfl, by decide⟩

/-- A frame for each outcome: illegal, wrong length, index out of range, success. -/
theorem witness_StatusNamesTheFirstError :
    (requiredLen (0x0A : Byte).toNat = none ∧ (oddCore [0x0A, 1, 9]).stream = 0x0A :: 1 :: ([9] ++ [])) ∧
    (requiredLen (2 : Byte).toNat = some 16 ∧ (1 : Byte).toNat ≠ 16 ∧ (oddCore [2, 1, 9]).stream = 2 :: 1 :: ([9] ++ [])) ∧
    (∃ k ∈ List.range 16, 7 < byteAt (List.replicate 16 8) k) ∧
    (List.replicate 16 (8 : Byte)).length = (16 : Byte).toNat ∧
    (requiredLen (1 : Byte).toNat = some 2 ∧ (oddCore [1, 2, 9, 9]).stream = 1 :: 2 :: ([9, 9] ++ [])) := by decide

theorem witness_ErrorCompletionLeavesNoResult :
    step (oddCore [0, 0]) = .next (after (step (oddCore [0, 0]))) ∧ hostReadStatus (after (step (oddCore [0, 0]))) ≠ 0 :=
  ⟨rfl, by decide⟩

/-- Steps that keep the invariant and one that establishes it: `oddCore` does not meet it. -/
theorem witness_EveryStepEndsConsistent :
    step (testCore [1, 2, 7, 9]) = .next (after (step (testCore [1, 2, 7, 9]))) ∧
    step (oddCore [3, 0]) = .next (after (step (oddCore [3, 0]))) ∧ ¬ (oddCore [3, 0]).Consistent :=
  ⟨rfl, rfl, by decide⟩

/-- Reset with another `BLUE_OVF`, a delivery, a step. -/
theorem witness_ReachableStatesConsistent :
    State.Reachable (after (step (hostDeliver [1, 2, 7, 9] (hostReset [] (oddCore []))))) :=
  .step (hostDeliver [1, 2, 7, 9] (hostReset [] (oddCore []))) _ (.deliver _ _ (.reset [] (oddCore []))) rfl

theorem witness_ResultsAreStateless :
    (∃ p, Instr.decompressN [4] = .decompressN p) ∧
    (oddCore []).blueSel = ({ State.reset with blueSel := 4 } : State).blueSel ∧
    ¬ ∃ p, Instr.palgen [4] = .decompressN p := ⟨⟨_, rfl⟩, rfl, by simp⟩

/-- The first byte, the last below `OUTLEN`, the first at it, and the last of the buffer; and an error. -/
theorem witness_NoStaleBytesBeyondOutLen :
    let t := after (step (testCore [1, 2, 7, 9]))
    step (testCore [1, 2, 7, 9]) = .next t ∧ 0 < (hostReadOutLen t).toNat ∧ 24 < (hostReadOutLen t).toNat ∧
    (hostReadOutLen t).toNat ≤ 25 ∧ (hostReadOutLen t).toNat ≤ 63 ∧
    hostReadStatus (after (step (testCore [1, 0]))) ≠ 0 := ⟨rfl, by decide, by decide, by decide, by decide, by decide⟩

theorem witness_OnlyAssignedErrCodes :
    step (oddCore [7, 0]) = .next (after (step (oddCore [7, 0]))) ∧ 4 ≤ (4 : BitVec 3).toNat ∧
    ¬ 4 ≤ (3 : BitVec 3).toNat := ⟨rfl, by decide, by decide⟩

/-- The premises that `CommandFrame` and `IllegalUnless` hold in the statements of the nine commands: boundary payload
lengths, lengths next to the required one, and for each opcode the first and the last reserved first byte. -/
theorem witness_CommandFrame_and_IllegalUnless :
    (∀ n ∈ [0, 255], (List.replicate n (0 : Byte)).length ≤ 255) ∧
    (∀ n ∈ [2, 6, 16, 18, 64], (List.replicate (n + 1) (0 : Byte)).length ≠ n) ∧
    (∀ op ∈ [1, 2, 3, 4, 5], ∀ h ∈ [op + 8, op + 248], h % 8 = op ∧ h ∉ [op] ∧ (BitVec.ofNat 8 h).toNat = h) ∧
    (∀ h ∈ [0x26, 0xFE], h % 8 = 6 ∧ h ∉ [0x06, 0x0E, 0x16, 0x1E] ∧ (BitVec.ofNat 8 h).toNat = h) ∧
    ([5] : List Byte).length = (1 : Byte).toNat ∧ (oddCore [0xF9, 1, 5, 6]).stream = 0xF9 :: 1 :: ([5] ++ [6]) := by
  decide

/-- Equal endpoints, the largest standard pair, and the branches' boundary indices. -/
theorem witness_palette_statements :
    (100 : Byte).toNat ≤ (100 : Byte).toNat ∧ (0 : Byte).toNat < (1 : Byte).toNat ∧ (0 : Byte).toNat < (255 : Byte).toNat ∧
    (5 : Index).toNat < 6 ∧ (100 : Byte) = 100 := by decide

theorem witness_PackGivesIndexField :
    (List.replicate 16 (7 : Byte)).length = 16 ∧ (∀ i < 16, byteAt (List.replicate 16 7) i ≤ 7) ∧
    (List.replicate 16 (8 : Byte)).length = 16 ∧ ∃ i < 16, 7 < byteAt (List.replicate 16 8) i := by decide

theorem witness_UnpackGivesIndexVector : (List.replicate 6 (0xFF : Byte)).length = 6 := by decide

theorem witness_QuantGivesNearestIndices : (List.replicate 18 (0xFF : Byte)).length = 18 ∧ IsNearest 0 255 128 4 := by
  refine ⟨by decide, by decide, ?_⟩
  intro j hj
  simp only [distOf, denOf, palnOf]
  interval_cases j <;> decide

/-- 128 between the endpoints 0 and 255 selects index 4, so there are lower indices to compare with. -/
theorem witness_NearestIsTheDocumentsSelection :
    (3 : Index).toNat < (nearest (pal 0 255) 128).toNat := by decide

theorem witness_CompressIndicesUpToFive :
    ((0 : Byte).toNat ≤ (0 : Byte).toNat ∧ (0 : Byte).toNat ≤ (255 : Byte).toNat) ∧
    ((7 : Byte).toNat ≤ (7 : Byte).toNat) ∧ (List.replicate 64 (7 : Byte)).length = 64 ∧ 0 < 16 ∧ 15 < 16 := by decide

/-- Two blocks that differ in every blue and alpha byte only. -/
theorem witness_CompressIgnoresBlueAndAlpha :
    let p : List Byte := (List.range 16).flatMap fun _ => [1, 2, 3, 4]
    let q : List Byte := (List.range 16).flatMap fun _ => [1, 2, 0, 255]
    p.length = 64 ∧ q.length = 64 ∧ p ≠ q ∧
    ∀ i < 16, byteAt p (4 * i) = byteAt q (4 * i) ∧ byteAt p (4 * i + 1) = byteAt q (4 * i + 1) := by decide

theorem witness_CompressGivesEncodedBlock : (List.replicate 64 (255 : Byte)).length = 64 := by decide

/-- Payload lengths, and both sides of `B9 = 255`: a red of 0 with a green of 0, and with a green of 1/5. -/
theorem witness_DecompressGivesPixelBlock :
    (List.replicate 16 (0xFF : Byte)).length = 16 ∧ b9Of 0 255 0 0 255 0 ≤ 255 ∧ 255 < b9Of 0 255 2 0 255 0 := by
  refine ⟨by decide, ?_, ?_⟩
  · have : radicandOf 0 255 0 0 255 0 = (1275 * 1275) ^ 2 := by simp [radicandOf, denOf, palnOf]
    have h : Nat.sqrt ((1275 * 1275) ^ 2 : Int).toNat = 1275 * 1275 := Nat.sqrt_eq' (1275 * 1275)
    simp only [b9Of, this, h, denOf]; decide
  · have h : (1275 * 1275 * 1275 * 1275 : Nat) < (radicandOf 0 255 2 0 255 0).toNat := by
      simp [radicandOf, denOf, palnOf]
    have h2 : 255 * 5 * 5 * 257 ≤ Nat.sqrt (radicandOf 0 255 2 0 255 0).toNat := by
      rw [Nat.le_sqrt]; simp [radicandOf, denOf, palnOf]
    simp only [b9Of, denOf]
    have : 257 ≤ Nat.sqrt (radicandOf 0 255 2 0 255 0).toNat / (255 * 5 * 5) := by
      rw [Nat.le_div_iff_mul_le (by norm_num)]; omega
    simp; omega

/-- `b9 ≤ 255` at red 0 and green 0, where the root is 1 and the floor 255; `255 < b9` at red 1/5 and green 0. -/
theorem witness_NormalZIsTheRealFormula :
    ⌊255 * (Real.sqrt (1 - (2 * (0 : ℝ) - 1) ^ 2 + (2 * (0 : ℝ) - 1) ^ 2) / 2 + 1 / 2)⌋ ≤ 255 ∧
    255 < ⌊255 * (Real.sqrt (1 - (2 * (1 / 5 : ℝ) - 1) ^ 2 + (2 * (0 : ℝ) - 1) ^ 2) / 2 + 1 / 2)⌋ ∧
    (pal 0 255).numerator 0 = 0 ∧ (pal 0 255).numerator 2 = 255 ∧ (pal 0 255).den = 5 := by
  refine ⟨?_, ?_, by decide, by decide, by decide⟩
  · norm_num
  · have h : (6 / 5 : ℝ) ≤ Real.sqrt (1 - (2 * (1 / 5 : ℝ) - 1) ^ 2 + (2 * (0 : ℝ) - 1) ^ 2) := by
      apply Real.le_sqrt_of_sq_le; norm_num
    have : (256 : ℤ) ≤ ⌊255 * (Real.sqrt (1 - (2 * (1 / 5 : ℝ) - 1) ^ 2 + (2 * (0 : ℝ) - 1) ^ 2) / 2 + 1 / 2)⌋ := by
      rw [Int.le_floor]; push_cast; linarith
    omega

/-- The premise with equality (red 0, green 0) and strictly (red 0, green 1/5). -/
theorem witness_NormalZNoOverflow :
    |2 * ((pal 0 255).numerator 0 : Int) - 255 * (pal 0 255).den| * (255 * (pal 0 255).den) =
      |2 * ((pal 0 255).numerator 0 : Int) - 255 * (pal 0 255).den| * (255 * (pal 0 255).den) ∧
    |2 * ((pal 0 255).numerator 2 : Int) - 255 * (pal 0 255).den| * (255 * (pal 0 255).den) ≤
      |2 * ((pal 0 255).numerator 0 : Int) - 255 * (pal 0 255).den| * (255 * (pal 0 255).den) := ⟨rfl, by decide⟩

/-- A block, a mode, and a sample that is the least of its channel. -/
theorem witness_roundTrip_statements :
    let p : List Byte := (List.range 16).flatMap fun i => [BitVec.ofNat 8 (17 * i), 9, 0, 0]
    p.length = 64 ∧ Instr.decompressN ∈ [Instr.decompressZ, Instr.decompressO, Instr.decompressN, Instr.decompressR] ∧
    seen (exec (.compress p) State.reset) = some (0, 16, [0x00, 0xFF, 0x26, 0xDB, 0x24, 0x6D, 0xA4, 0x80, 9, 9, 0, 0, 0, 0, 0, 0], []) ∧
    byteAt p 0 = 0 ∧ byteAt p 60 = 255 := by
  refine ⟨by decide, by simp, by decide, by decide, by decide⟩

theorem witness_QuantThenPackIsCompressChannel : (List.replicate 64 (5 : Byte)).length = 64 ∧ 0 < 2 ∧ 1 < 2 := by decide

/-- Two cores that take turns, and each of them alone. -/
theorem witness_InterleavingEqualsRunningAlone :
    let p : Platform 2 := #v[testCore [1, 2, 7, 9, 0, 0], oddCore [3, 0]]
    (∃ q, runSchedule [0, 1, 0] p = .next q) ∧
    (∃ t, core.run ([(0 : Fin 2), 1, 0].count 0) p[0] = .next t) ∧
    ∃ t, core.run ([(0 : Fin 2), 1, 0].count 1) p[1] = .next t := ⟨⟨_, rfl⟩, ⟨_, rfl⟩, ⟨_, rfl⟩⟩

theorem witness_CommandLinesAssemble :
    ((∀ v ∈ [0, 255], v ≤ 255) ∧ [0, 255].length ≤ 255) ∧ ((∃ v ∈ [1, 256], 255 < v) ∨ 255 < [1, 256].length) ∧
    255 < (List.replicate 256 0).length ∧
    ((Mnemonic.compress ≠ .decompress ∨ Suffix.z = .rg) ∧ ¬ (Mnemonic.compress = .compress ∧ Suffix.z = .rg)) ∧
    ((Mnemonic.pack ≠ .decompress ∨ Suffix.rg = .rg) ∧ ¬ (Mnemonic.pack = .compress ∧ Suffix.rg = .rg)) ∧
    ((Mnemonic.decompress ≠ .decompress ∨ Suffix.rg = .rg) ∧ ¬ (Mnemonic.decompress = .compress ∧ Suffix.rg = .rg)) := by
  decide

theorem witness_PseudoCommandsExpand :
    (List.replicate 16 255).length = 16 ∧ ∀ v ∈ List.replicate 16 255 ++ List.replicate 16 0, v ≤ 255 := by decide

theorem witness_RawDirectiveEmitsWord :
    65535 < 65536 ∧ 0xFF02 < 65536 ∧ (∀ v ∈ [0, 255], v ≤ 255) ∧ [0, 255].length = 0xFF02 % 256 ∧
    [0, 255].length ≠ 65535 % 256 := by decide

theorem witness_AssembledStreamIsWholeFrames :
    assembleLines [.command .palgen none [7, 9], .raw 0x0700 []] = .ok [1, 2, 7, 9, 7, 0] := by decide

end Sys2Proof.Tests
end

/-! # The result registers: how a step leaves them, what they depend on, reset

How a command ends is said once (`step_ends`, `runCommand_ends`); the statements about the registers follow from it. -/

namespace Sys2Proof.Machine

/-! ## How a step ends -/

/-- Everything a completed step can leave: an error completion, or a result of 6, 16, 25 or 64 bytes, the frame being
consumed in both. -/
theorem step_ends {s t : State} (h : step s = .next t) :
    (∃ (e : Err) (rest : List Byte), t = raiseError e (consumeFrame rest s)) ∨
    ∃ (m : Nat) (r : Vector Byte m) (rest : List Byte),
      m ∈ [6, 16, 25, 64] ∧ t = resultComplete r (consumeFrame rest s) := by
  obtain ⟨_, rest, _, rfl⟩ | ⟨i, rest, _, hexec⟩ := step_cases h
  · exact .inl ⟨_, rest, rfl⟩
  · obtain ⟨e, he⟩ | ⟨m, r, hm, hr⟩ := exec_cases i (consumeFrame rest s)
    · rw [he] at hexec
      injection hexec with ht
      exact .inl ⟨e, rest, ht.symm⟩
    · rw [hr] at hexec
      injection hexec with ht
      exact .inr ⟨m, r, rest, hm, ht.symm⟩

/-- A completed step as the host sees it: an error or a result. -/
theorem step_shows {s t : State} (h : step s = .next t) :
    (∃ code, t.ShowsError code) ∨ ∃ r, t.Shows r := by
  obtain ⟨e, _, rfl⟩ | ⟨m, r, _, hm, rfl⟩ := step_ends h
  · exact .inl ⟨_, raiseError_shows e _⟩
  · have hm64 : m ≤ 64 := by simp at hm; omega
    exact .inr ⟨_, resultComplete_shows r hm64 _⟩

/-- Settles O17: both ways a step ends leave registers that agree, whatever state it started from. -/
theorem everyStepEndsConsistent : Obligations.EveryStepEndsConsistent := by
  intro s t h
  obtain ⟨e, _, rfl⟩ | ⟨_, r, _, hm, rfl⟩ := step_ends h
  · exact raiseError_consistent e _
  · exact resultComplete_consistent r hm _

/-! ## Reset and reachable states -/

/-- Reset leaves the result registers consistent, whatever stays on the stream. -/
theorem hostReset_consistent (pending : List Byte) (s : State) : (hostReset pending s).Consistent := by
  refine ⟨rfl, rfl, ?_, ?_, ?_⟩ <;> simp

/-- A delivery changes no result register. -/
theorem hostDeliver_consistent {s : State} (h : s.Consistent) (bytes : List Byte) :
    (hostDeliver bytes s).Consistent := h

/-- No byte of `OUT` can be read after reset (R15, R20). -/
theorem hostReadOut_reset {a : Nat} (h : a < 64) : hostReadOut State.reset a = .error .outHoldsNoValue := by
  simp [hostReadOut, State.reset, outRead, show a < outBytes from h]

/-- Settles O15. -/
theorem resetRegisters : Obligations.ResetRegisters :=
  ⟨rfl, rfl, fun _ ha => hostReadOut_reset ha⟩

/-- Settles O16: the state after reset is the reset event with nothing pending. -/
theorem resetStateConsistent : Obligations.ResetStateConsistent :=
  hostReset_consistent [] State.reset

/-- Settles O18, by induction on how the state is reached. -/
theorem reachableStatesConsistent : Obligations.ReachableStatesConsistent := by
  intro s h
  induction h with
  | reset pending s => exact hostReset_consistent pending s
  | deliver bytes s _ ih => exact hostDeliver_consistent ih bytes
  | step s t _ hstep _ => exact everyStepEndsConsistent s t hstep

/-! ## What the result depends on -/

/-- How a command ends is fixed by its payload: from every state it raises the same error or gives the same result
(R11). -/
theorem runCommand_ends {n m : Nat} (f : Vector Byte n → Except Err (Vector Byte m)) (p : List Byte) :
    (∃ e, ∀ s, runCommand f p s = .next (raiseError e s)) ∨
    ∃ r : Vector Byte m, ∀ s, runCommand f p s = .next (resultComplete r s) := by
  by_cases h : p.length = n
  · rcases hf : f ⟨p.toArray, by simp [h]⟩ with e | r
    · exact .inl ⟨e, fun s => by simp [runCommand, checkedPayload_some h, hf]⟩
    · exact .inr ⟨r, fun s => by simp [runCommand, checkedPayload_some h, hf]⟩
  · exact .inl ⟨.invalidLength, fun s => by simp [runCommand, checkedPayload_none h]⟩

/-- Only ComputeNormalZ reads which `BLUE_OVF` the core was built with (R111, R114). -/
theorem blueByte_blueSel {mode : BlueMode} (h : mode ≠ .computeNormalZ) (b b' : Nat) :
    blueByte mode b = blueByte mode b' := by
  cases mode with
  | computeNormalZ => exact absurd rfl h
  | alwaysZero | alwaysOne | copyRed => rfl

/-- In the other three blue modes the result of DECOMPRESS does not depend on `BLUE_OVF` (R11, R111). -/
theorem decompressResult_blueSel {mode : BlueMode} (h : mode ≠ .computeNormalZ) (b b' : Nat) :
    decompressResult mode b = decompressResult mode b' := by
  funext x
  simp only [decompressResult, decodedPixels, decodedPixel, blueByte_blueSel h b b']

/-- Both runs complete, with the same result registers. -/
def SameResult (o o' : Host.Outcome State Fault Refusal) : Prop :=
  ∃ t t', o = .next t ∧ o' = .next t' ∧ t.out = t'.out ∧ t.outLen = t'.outLen ∧ t.status = t'.status

/-- Two runs of one command on one payload, from any two states, give the same result. -/
theorem runCommand_sameResult {n m : Nat} (f : Vector Byte n → Except Err (Vector Byte m)) (p : List Byte)
    (s s' : State) : SameResult (runCommand f p s) (runCommand f p s') := by
  obtain ⟨_, h⟩ | ⟨_, h⟩ := runCommand_ends f p
  all_goals exact ⟨_, _, h s, h s', rfl, rfl, rfl⟩

/-- So do two runs of DECOMPRESS, on cores that agree in `BLUE_OVF` if the mode is ComputeNormalZ. -/
theorem decompress_sameResult (mode : BlueMode) (p : List Byte) {s s' : State}
    (h : mode = .computeNormalZ → s.blueSel = s'.blueSel) :
    SameResult (runCommand (decompressResult mode s.blueSel) p s)
      (runCommand (decompressResult mode s'.blueSel) p s') := by
  have hf : decompressResult mode s.blueSel = decompressResult mode s'.blueSel := by
    by_cases hm : mode = .computeNormalZ
    · rw [h hm]
    · exact decompressResult_blueSel hm _ _
  rw [hf]
  exact runCommand_sameResult _ p s s'

/-- Settles O19: the result registers are written from the payload alone, for DECOMPRESS.n also from `BLUE_OVF`. -/
theorem resultsAreStateless : Obligations.ResultsAreStateless := by
  intro i s s' hblue
  cases i with
  | palgen p => exact runCommand_sameResult palgenResult p s s'
  | pack p => exact runCommand_sameResult packResult p s s'
  | unpack p => exact runCommand_sameResult unpackResult p s s'
  | quant p => exact runCommand_sameResult quantResult p s s'
  | compress p => exact runCommand_sameResult compressResult p s s'
  | decompressZ p => exact decompress_sameResult .alwaysZero p nofun
  | decompressO p => exact decompress_sameResult .alwaysOne p nofun
  | decompressN p => exact decompress_sameResult .computeNormalZ p fun _ => hblue ⟨p, rfl⟩
  | decompressR p => exact decompress_sameResult .copyRed p nofun

/-! ## What the host reads -/

/-- Settles O21: an error leaves no byte to read, and a result exactly the bytes of its length. -/
theorem noStaleBytesBeyondOutLen : Obligations.NoStaleBytesBeyondOutLen := by
  refine ⟨fun s t h a ha => ?_, fun a ha => hostReadOut_reset ha⟩
  obtain ⟨_, _, hlen, hnone⟩ | ⟨r, hstatus, hlen, hread⟩ := step_shows h
  · exact ⟨fun hlt => by simp [hlen] at hlt, fun _ => hnone a ha, fun _ => hnone a ha⟩
  · rw [hlen, hread a ha]
    refine ⟨fun hlt => ⟨r[a], ?_⟩, fun hle => ?_, fun herr => absurd hstatus herr⟩
    · rw [List.getElem?_eq_getElem hlt]
    · rw [List.getElem?_eq_none hle]

/-- The register as a number is its field `ERR` (R14). -/
theorem Status.word_toNat (st : Status) : st.word.toNat = st.err.toNat :=
  (toNat_append_add (0 : BitVec 5) st.err).trans (by simp)

theorem errOfCode_okCode : errOfCode okCode = .ok none := rfl

theorem errOfCode_code (e : Err) : errOfCode e.code = .ok (some e) := by
  cases e <;> rfl

/-- Exactly the codes 4 to 7 have no meaning (R120). -/
theorem errOfCode_unassigned_iff : ∀ c : BitVec 3, errOfCode c = .error .unassignedErrCode ↔ 4 ≤ c.toNat := by
  decide

/-- After a step the host's question for the meaning of `ERR` is answered. -/
theorem step_hostReadErr {s t : State} (h : step s = .next t) : ∃ e, hostReadErr t = .ok e := by
  obtain ⟨e, _, rfl⟩ | ⟨_, _, _, _, rfl⟩ := step_ends h
  · exact ⟨some e, errOfCode_code e⟩
  · exact ⟨none, errOfCode_okCode⟩

/-- Settles O22. -/
theorem onlyAssignedErrCodes : Obligations.OnlyAssignedErrCodes := by
  refine ⟨fun s => ?_, fun s t h => ⟨?_, step_hostReadErr h⟩, errOfCode_unassigned_iff⟩
  · rw [hostReadStatus, Status.word_toNat]
    exact s.status.err.isLt
  · obtain ⟨_, _, _, hcode, _⟩ := everyStepEndsConsistent s t h
    rwa [hostReadStatus, Status.word_toNat]

/-! ## The step and the decoded command -/

/-- Settles O8. -/
theorem stepRunsTheDecodedCommand : Obligations.StepRunsTheDecodedCommand := by
  intro s i rest h
  rw [step_of_decode, h]
  rfl

end Sys2Proof.Machine

/-! # Commands: their frames, their errors, their answers; the palette record

What every command's statement asks of its frame and its errors follows from the two ways a command completes and
from the opcode map by the frame's first byte. -/

namespace Sys2Proof.Machine

open Sys2Proof.Claims

/-! ## How a command completes, as the host sees it -/

/-- A command that takes error completion raises the error's code and changes nothing else (R127). -/
theorem raises_of_raiseError {i : Instr} {s : State} {e : Err} (h : exec i s = .next (raiseError e s)) :
    Raises i s ((0 : BitVec 5) ++ e.code) :=
  ⟨_, h, raiseError_shows e s, rfl, rfl⟩

/-- A command that completes with a result answers it and changes nothing else (R32). -/
theorem answers_of_resultComplete {i : Instr} {s : State} {m : Nat} {r : Vector Byte m} (hm : m ≤ 64)
    (h : exec i s = .next (resultComplete r s)) : Answers i s r.toList :=
  ⟨_, h, resultComplete_shows r hm s, rfl, rfl⟩

/-- A payload of any length but the required one ends in InvalidLength (R121). -/
theorem runCommand_invalidLength {n m : Nat} (f : Vector Byte n → Except Err (Vector Byte m)) {p : List Byte}
    (h : p.length ≠ n) (s : State) : runCommand f p s = .next (raiseError .invalidLength s) := by
  simp [runCommand, checkedPayload_none h]

/-- A payload of the required length ends in the result that the command's function gives for it. -/
theorem runCommand_ok {n m : Nat} {f : Vector Byte n → Except Err (Vector Byte m)} {x : Vector Byte n}
    {r : Vector Byte m} (h : f x = .ok r) (s : State) : runCommand f x.toList s = .next (resultComplete r s) := by
  have hx : checkedPayload n x.toList = some x := checkedPayload_some x.length_toList
  simp [runCommand, hx, h]

/-! ## Frames -/

/-- A whole frame on a stream decodes to the command its first byte selects, whatever its `LEN` (R52, R55). -/
theorem decode_of_select {hi : Byte} {mk : List Byte → Instr}
    (hsel : ∀ (lo : Byte) (p : List Byte), CmdWord.select (hi ++ lo) p = .ok (mk p))
    {p : List Byte} (hp : p.length ≤ 255) (rest : List Byte) :
    decode (hi :: BitVec.ofNat 8 p.length :: (p ++ rest)) = .command (mk p) rest := by
  have hlen : p.length = (BitVec.ofNat 8 p.length).toNat := by
    rw [BitVec.toNat_ofNat, Nat.mod_eq_of_lt (by omega)]
  rw [decode_frame _ _ _ _ hlen, hsel]

/-- A command stands under its first byte and checks its length: it is selected by that byte, and runs a function of
`n` payload bytes. -/
theorem commandFrame_of_select {hi : Byte} {mk : List Byte → Instr} {n m : Nat}
    (f : State → Vector Byte n → Except Err (Vector Byte m))
    (hsel : ∀ (lo : Byte) (p : List Byte), CmdWord.select (hi ++ lo) p = .ok (mk p))
    (hexec : ∀ (p : List Byte) (s : State), exec (mk p) s = runCommand (f s) p s) : CommandFrame hi mk n := by
  refine ⟨fun p rest hp => decode_of_select hsel hp rest, fun p s hp => ?_⟩
  exact raises_of_raiseError (e := .invalidLength) ((hexec p s).trans (runCommand_invalidLength (f s) hp s))

/-- The first bytes of the frames of the nine commands (R55). -/
def legalFirstBytes : List Nat := [1, 2, 3, 4, 5, 6, 14, 22, 30]

/-- The opcode map names a command for no other first byte (R56 to R58). -/
theorem select_error_of_not_legal {hi : Byte} (h : hi.toNat ∉ legalFirstBytes) (lo : Byte) (p : List Byte) :
    ∃ why, CmdWord.select (hi ++ lo) p = .error why := by
  simp only [legalFirstBytes, List.mem_cons, List.not_mem_nil, or_false, not_or] at h
  obtain ⟨h1, h2, h3, h4, h5, h6, h14, h22, h30⟩ := h
  rw [select_eq, if_neg h1, if_neg h2, if_neg h3, if_neg h4, if_neg h5, if_neg h6, if_neg h14, if_neg h22, if_neg h30]
  split
  · exact ⟨_, rfl⟩
  · split <;> exact ⟨_, rfl⟩

/-- A step at a whole frame with another first byte ends in IllegalCommand, the frame being consumed (R59, R122). -/
theorem step_of_not_legal {hi lo : Byte} {p rest : List Byte} {s : State} (hhi : hi.toNat ∉ legalFirstBytes)
    (hp : p.length = lo.toNat) (hs : s.stream = hi :: lo :: (p ++ rest)) :
    step s = .next (raiseError .illegalCommand (consumeFrame rest s)) := by
  obtain ⟨why, hsel⟩ := select_error_of_not_legal hhi lo p
  rw [step_of_decode, hs, decode_frame _ _ _ _ hp, hsel]

/-- An opcode is illegal but for the first bytes in `legal`, if these are all its first bytes that name a command. -/
theorem illegalUnless_of_legal {op : Nat} {legal : List Nat}
    (h : ∀ n ∈ legalFirstBytes, n % 8 = op → n ∈ legal) : IllegalUnless op legal := by
  intro hi lo p rest s hop hhi hp hs
  have hnot : hi.toNat ∉ legalFirstBytes := fun hmem => hhi (h _ hmem hop)
  exact ⟨_, step_of_not_legal hnot hp hs, raiseError_shows .illegalCommand _, rfl, rfl⟩

/-! ## The palette record -/

/-- The bits [15:8] of a number of 16 bits. -/
theorem hiByte_toNat {v : Nat} (h : v < 2 ^ 16) : (hiByte v).toNat = v / 256 := by
  simp only [hiByte, BitVec.extractLsb'_toNat, BitVec.toNat_ofNat, Nat.shiftRight_eq_div_pow]
  omega

/-- The bits [7:0] of a number. -/
theorem loByte_toNat (v : Nat) : (loByte v).toNat = v % 256 := by
  simp only [loByte, BitVec.extractLsb'_toNat, BitVec.toNat_ofNat, Nat.shiftRight_eq_div_pow]
  omega

/-- A numerator by its closed form is at most that of the value 1: it is a sentinel, or its
weights add up to the denominator (R76). -/
theorem palnOf_le {e0 e1 k : Nat} (h0 : e0 ≤ 255) (h1 : e1 ≤ 255) (hk : k < 8) :
    palnOf e0 e1 k ≤ 255 * denOf e0 e1 := by
  unfold palnOf denOf
  split <;> interval_cases k <;> simp <;> omega

theorem pal_numerator_le (e0 e1 : Byte) (k : Index) : (pal e0 e1).numerator k ≤ 255 * (pal e0 e1).den := by
  rw [pal_numerator, pal_den]
  exact palnOf_le (by omega) (by omega) k.isLt

theorem pal_den_le (e0 e1 : Byte) : (pal e0 e1).den ≤ 7 := by
  rw [pal_den, denOf]
  split <;> decide

/-- The two bytes of a numerator in the record (R43): it has at most 11 bits, so none is lost. -/
theorem pal_numeratorBytes_toNat (e0 e1 : Byte) (k : Index) :
    (hiByte ((pal e0 e1).numerator k)).toNat = palnOf e0.toNat e1.toNat k.toNat / 256 ∧
    (loByte ((pal e0 e1).numerator k)).toNat = palnOf e0.toNat e1.toNat k.toNat % 256 := by
  have hle := pal_numerator_le e0 e1 k
  have hden := pal_den_le e0 e1
  rw [hiByte_toNat (by omega), loByte_toNat, pal_numerator]
  exact ⟨rfl, rfl⟩

/-- The denormalised bytes of a palette as numbers (R75). -/
theorem pal_byte_toNat (e0 e1 : Byte) (k : Index) :
    ((pal e0 e1).byte k).toNat = palbOf e0.toNat e1.toNat k.toNat := by
  have hdiv : (pal e0 e1).numerator k / (pal e0 e1).den ≤ 255 :=
    Nat.div_le_of_le_mul ((pal_numerator_le e0 e1 k).trans_eq (Nat.mul_comm _ _))
  rw [pal_byte, BitVec.toNat_ofNat, Nat.mod_eq_of_lt (by omega), pal_numerator, pal_den, palbOf]

/-- The byte `DEG` is 1 in the degenerate branch, also for equal endpoints (R43, R72). -/
theorem pal_degByte_toNat (e0 e1 : Byte) :
    (degByte (pal e0 e1).deg).toNat = if e0.toNat > e1.toNat then 0 else 1 := by
  unfold pal
  split <;> rfl

/-- The palette record in its order: `DEG`, the numerators big-endian, the bytes (R43). -/
theorem paletteRecord_toList (p : Palette) :
    (paletteRecord p).toList = [degByte p.deg] ++
      ((List.finRange 8).flatMap fun k => [hiByte (p.numerator (.ofFin k)), loByte (p.numerator (.ofFin k))]) ++
      (List.finRange 8).map fun k => p.byte (.ofFin k) := by
  rw [paletteRecord, Vector.toList_ofFn]
  simp [List.ofFn_succ, List.finRange_succ, bigEndian16, Palette.numerator, Palette.byte]

/-- The palette record of an endpoint pair as numbers (R43, R72 to R75). -/
theorem paletteRecord_pal_toNat (e0 e1 : Byte) :
    (paletteRecord (pal e0 e1)).toList.map BitVec.toNat = recordOf e0.toNat e1.toNat := by
  rw [paletteRecord_toList, recordOf, ← List.map_coe_finRange_eq_range]
  simp only [List.map_append, List.map_cons, List.map_nil, List.map_flatMap, List.flatMap_map, List.map_map,
    Function.comp_def, pal_degByte_toNat, pal_numeratorBytes_toNat, pal_byte_toNat, BitVec.toNat_ofFin]

/-! ## PALGEN -/

/-- PALGEN completes with the palette record of its two payload bytes (R71). -/
theorem exec_palgen (e0 e1 : Byte) (s : State) :
    exec (.palgen [e0, e1]) s = .next (resultComplete (paletteRecord (pal e0 e1)) s) :=
  runCommand_ok (f := palgenResult) (x := #v[e0, e1]) rfl s

/-- Settles O23: the frame and the errors are those of any command, and the result is the palette record. -/
theorem palgenGivesPaletteRecord : Obligations.PalgenGivesPaletteRecord := by
  refine ⟨?_, illegalUnless_of_legal (by decide), fun e0 e1 s => ?_⟩
  · exact commandFrame_of_select (fun _ => palgenResult) (fun lo p => select_eq 1 lo p) fun _ _ => rfl
  · exact ⟨_, answers_of_resultComplete (by decide) (exec_palgen e0 e1 s), paletteRecord_pal_toNat e0 e1⟩

end Sys2Proof.Machine

/-! # The encoding: frames, the decoder both ways, the run over a stream of frames, the assembler

A frame is its first byte, `LEN` and the payload (`encode_eq`); what the decoder reads of one is said in both
directions (`decode_frame`, `frame_of_decode_command`), and what the assembler accepts once for each kind of line
(`assembleLine_command_ok_iff`, `assembleLine_raw_ok_iff`). -/

namespace Sys2Proof.Machine

/-! ## The frame of a command -/

/-- A command word made of two bytes stands on a stream as these bytes (R52). -/
theorem cmdWord_bytes (hi lo : Byte) : CmdWord.bytes (hi ++ lo) = [hi, lo] := by
  have hhi : BitVec.extractLsb' 8 8 (hi ++ lo) = hi := by
    apply BitVec.eq_of_toNat_eq
    simp only [BitVec.extractLsb'_toNat, Nat.shiftRight_eq_div_pow, cmdWord_toNat]
    omega
  exact congrArg₂ (fun x y => [x, y]) hhi (len_eq hi lo)

/-- The first byte of each command's frame (R55). -/
def firstByte : Instr → Byte
  | .palgen _ => 0x01
  | .pack _ => 0x02
  | .unpack _ => 0x03
  | .quant _ => 0x04
  | .compress _ => 0x05
  | .decompressZ _ => 0x06
  | .decompressO _ => 0x0E
  | .decompressN _ => 0x16
  | .decompressR _ => 0x1E

/-- It is `{RSV, BM, OP}`, with `RSV = 0` (R51). -/
theorem firstByte_eq (i : Instr) : firstByte i = (0 : BitVec 3) ++ i.bm ++ i.op := by
  cases i <;> simp [firstByte, Instr.bm, Instr.op]

/-- The command word is the first byte and `LEN` (R51). -/
theorem word_eq (i : Instr) : i.word = firstByte i ++ BitVec.ofNat 8 i.payload.length := by
  rw [firstByte_eq]
  rfl

/-- The frame of a command: its first byte, `LEN`, the payload in offset order (R52). -/
theorem encode_eq (i : Instr) : encode i = firstByte i :: BitVec.ofNat 8 i.payload.length :: i.payload := by
  rw [encode, word_eq, cmdWord_bytes]
  rfl

/-- Settles O3: the frame is `encode_eq`'s, and the first byte of each command that of R55. -/
theorem frameBytesOfEachCommand : Obligations.FrameBytesOfEachCommand := fun p =>
  ⟨encode_eq (.palgen p), encode_eq (.pack p), encode_eq (.unpack p), encode_eq (.quant p), encode_eq (.compress p),
    encode_eq (.decompressZ p), encode_eq (.decompressO p), encode_eq (.decompressN p), encode_eq (.decompressR p)⟩

/-- A length that fits `LEN` is what `LEN` holds (R53). -/
theorem toNat_len {n : Nat} (h : n ≤ 255) : (BitVec.ofNat 8 n).toNat = n := by
  rw [BitVec.toNat_ofNat, Nat.mod_eq_of_lt (by omega)]

/-! ## Decoding -/

/-- The opcode map gives each command under its first byte, whatever its `LEN` (R55). -/
theorem select_firstByte (i : Instr) (lo : Byte) : CmdWord.select (firstByte i ++ lo) i.payload = .ok i := by
  cases i with
  | palgen p => exact select_eq 0x01 lo p
  | pack p => exact select_eq 0x02 lo p
  | unpack p => exact select_eq 0x03 lo p
  | quant p => exact select_eq 0x04 lo p
  | compress p => exact select_eq 0x05 lo p
  | decompressZ p => exact select_eq 0x06 lo p
  | decompressO p => exact select_eq 0x0E lo p
  | decompressN p => exact select_eq 0x16 lo p
  | decompressR p => exact select_eq 0x1E lo p

/-- Settles O1: the frame of a well-formed command has exactly `LEN` payload bytes, and the opcode map gives the
command for its first byte. -/
theorem decodeEncodeRoundTrip : Obligations.DecodeEncodeRoundTrip := by
  intro i rest hwf
  rw [encode_eq, List.cons_append, List.cons_append, decode_frame _ _ _ _ (toNat_len hwf).symm,
    select_firstByte]

/-- Settles O4. -/
theorem opcodeMapWordsDecode : Obligations.OpcodeMapWordsDecode := by
  unfold Obligations.OpcodeMapWordsDecode
  decide

/-- Every first byte of R55 is that of a command with any payload. -/
theorem exists_firstByte_of_legal {hi : Byte} (h : hi.toNat ∈ legalFirstBytes) (p : List Byte) :
    ∃ i, firstByte i = hi ∧ i.payload = p := by
  simp only [legalFirstBytes, List.mem_cons, List.not_mem_nil, or_false] at h
  obtain h | h | h | h | h | h | h | h | h := h
  · exact ⟨.palgen p, BitVec.eq_of_toNat_eq h.symm, rfl⟩
  · exact ⟨.pack p, BitVec.eq_of_toNat_eq h.symm, rfl⟩
  · exact ⟨.unpack p, BitVec.eq_of_toNat_eq h.symm, rfl⟩
  · exact ⟨.quant p, BitVec.eq_of_toNat_eq h.symm, rfl⟩
  · exact ⟨.compress p, BitVec.eq_of_toNat_eq h.symm, rfl⟩
  · exact ⟨.decompressZ p, BitVec.eq_of_toNat_eq h.symm, rfl⟩
  · exact ⟨.decompressO p, BitVec.eq_of_toNat_eq h.symm, rfl⟩
  · exact ⟨.decompressN p, BitVec.eq_of_toNat_eq h.symm, rfl⟩
  · exact ⟨.decompressR p, BitVec.eq_of_toNat_eq h.symm, rfl⟩

/-- A command that the opcode map gives stands under that first byte and has that payload (R55 to R58). -/
theorem firstByte_payload_of_select {hi lo : Byte} {p : List Byte} {i : Instr}
    (h : CmdWord.select (hi ++ lo) p = .ok i) : firstByte i = hi ∧ i.payload = p := by
  have hlegal : hi.toNat ∈ legalFirstBytes := by
    by_contra hnot
    obtain ⟨why, herr⟩ := select_error_of_not_legal hnot lo p
    cases herr.symm.trans h
  obtain ⟨j, rfl, rfl⟩ := exists_firstByte_of_legal hlegal p
  cases (select_firstByte j lo).symm.trans h
  exact ⟨rfl, rfl⟩

/-- With fewer than `LEN` bytes after the word the frame is not whole (R149). -/
theorem decode_short (hi : Byte) {lo : Byte} {tail : List Byte} (h : tail.length < lo.toNat) :
    decode (hi :: lo :: tail) = .incomplete := by
  simp [decode, len_eq, h]

/-- A stream that decodes to a command begins with a whole frame, for which the opcode map gives that command. -/
theorem frame_of_decode_command {bs rest : List Byte} {i : Instr} (h : decode bs = .command i rest) :
    ∃ (hi lo : Byte) (p : List Byte), p.length = lo.toNat ∧ bs = hi :: lo :: (p ++ rest) ∧
      CmdWord.select (hi ++ lo) p = .ok i := by
  match bs with
  | [] | [_] => cases h
  | hi :: lo :: tail =>
    obtain hshort | hwhole := Nat.lt_or_ge tail.length lo.toNat
    · cases (decode_short hi hshort).symm.trans h
    · have hlen : (tail.take lo.toNat).length = lo.toNat := List.length_take_of_le hwhole
      rw [← List.take_append_drop lo.toNat tail, decode_frame _ _ _ _ hlen] at h
      cases hsel : CmdWord.select (hi ++ lo) (tail.take lo.toNat) with
      | error why => simp [hsel] at h
      | ok j =>
        obtain ⟨rfl, rfl⟩ : j = i ∧ tail.drop lo.toNat = rest := by simpa [hsel] using h
        exact ⟨hi, lo, _, hlen, by rw [List.take_append_drop], hsel⟩

/-- Settles O2: the frame the decoder read is the command's first byte, its payload's length and its payload. -/
theorem decodedFrameIsItsEncoding : Obligations.DecodedFrameIsItsEncoding := by
  intro bs i rest h
  obtain ⟨hi, lo, p, hlen, rfl, hsel⟩ := frame_of_decode_command h
  obtain ⟨rfl, rfl⟩ := firstByte_payload_of_select hsel
  refine ⟨by rw [Instr.WellFormed, hlen]; omega, ?_⟩
  rw [encode_eq, hlen, BitVec.ofNat_toNat, BitVec.setWidth_eq, List.cons_append, List.cons_append]

/-- What stands at the head of a stream, by what the opcode map gives for a whole frame. -/
def decodedOfSelect (rest : List Byte) : Except IllegalWord Instr → Decoded
  | .error why => .illegal why rest
  | .ok i => .command i rest

theorem decode_frame_eq_decodedOfSelect {hi lo : Byte} {p : List Byte} (h : p.length = lo.toNat) (rest : List Byte) :
    decode (hi :: lo :: (p ++ rest)) = decodedOfSelect rest (CmdWord.select (hi ++ lo) p) := by
  rw [decode_frame _ _ _ _ h]
  cases CmdWord.select (hi ++ lo) p <;> rfl

/-- Settles O5: the opcode map by the first byte, and the step at a first byte of no command. -/
theorem everyWordIsOneOfNineOrIllegal : Obligations.EveryWordIsOneOfNineOrIllegal := by
  intro hi lo p rest hp
  refine ⟨?_, fun hhi s hs => ?_⟩
  · rw [decode_frame_eq_decodedOfSelect hp, select_eq]
    simp only [apply_ite (decodedOfSelect rest)]
    rfl
  · exact ⟨_, step_of_not_legal hhi hp hs, raiseError_shows .illegalCommand _, rfl, rfl⟩

/-! ## The run over whole frames -/

/-- A command completes and leaves the stream alone (R59, R128). -/
theorem exec_stream (i : Instr) (s : State) : ∃ t, exec i s = .next t ∧ t.stream = s.stream := by
  obtain ⟨e, h⟩ | ⟨_, r, _, h⟩ := exec_cases i s
  · exact ⟨_, h, raiseError_stream e s⟩
  · exact ⟨_, h, resultComplete_stream r s⟩

/-- A step at a whole frame completes and takes that frame off the stream, whatever its word (R59). -/
theorem step_frame {hi lo : Byte} {p rest : List Byte} {s : State} (hp : p.length = lo.toNat)
    (hs : s.stream = hi :: lo :: (p ++ rest)) : ∃ t, step s = .next t ∧ t.stream = rest := by
  rw [step_of_decode, hs, decode_frame _ _ _ _ hp]
  cases CmdWord.select (hi ++ lo) p with
  | error why => exact ⟨_, rfl, rfl⟩
  | ok i => exact exec_stream i (consumeFrame rest s)

/-- Settles O7: the bytes after the word are `LEN` payload bytes and what follows the frame. -/
theorem frameConsumedWhateverOutcome : Obligations.FrameConsumedWhateverOutcome := by
  intro s hi lo tail hs hlo
  have hframe : s.stream = hi :: lo :: (tail.take lo.toNat ++ tail.drop lo.toNat) := by
    rw [hs, List.take_append_drop]
  obtain ⟨t, hstep, ht⟩ := step_frame (List.length_take_of_le hlo) hframe
  exact ⟨t, hstep, by rw [ht, hs, Nat.add_comm, List.drop_succ_cons, List.drop_succ_cons]⟩

theorem framesBytes_cons (f : Frame) (fs : List Frame) :
    framesBytes (f :: fs) = f.hi :: f.lo :: (f.payload ++ framesBytes fs) := rfl

theorem framesBytes_append (fs gs : List Frame) : framesBytes (fs ++ gs) = framesBytes fs ++ framesBytes gs :=
  List.flatMap_append

/-- A run goes on from the state a completed step leaves. -/
theorem run_succ_of_next {M : Host.Core} {s t : M.State} (h : M.step s = .next t) (k : Nat) :
    M.run (k + 1) s = M.run k t := by
  rw [Host.Core.run, h]

/-- A run stops at a fault. -/
theorem run_succ_of_fault {M : Host.Core} {s : M.State} {r : M.Fault} (h : M.step s = .fault r) (k : Nat) :
    M.run (k + 1) s = .fault r := by
  rw [Host.Core.run, h]

/-- A run over complete frames takes a step for each, and then goes on at what followed them (R59). -/
theorem run_frames (rest : List Byte) : ∀ (fs : List Frame) (s : State), (∀ f ∈ fs, f.Complete) →
    s.stream = framesBytes fs ++ rest →
    ∃ t : State, t.stream = rest ∧ ∀ k, core.run (k + fs.length) s = core.run k t := by
  intro fs
  induction fs with
  | nil => exact fun s _ hs => ⟨s, hs, fun _ => rfl⟩
  | cons f fs ih =>
    intro s hfs hs
    rw [framesBytes_cons, List.cons_append, List.cons_append, List.append_assoc] at hs
    obtain ⟨hf, hfs⟩ := List.forall_mem_cons.1 hfs
    obtain ⟨u, hstep, hu⟩ := step_frame hf hs
    obtain ⟨t, ht, hrun⟩ := ih u hfs hu
    exact ⟨t, ht, fun k => (run_succ_of_next (M := core) hstep _).trans (hrun k)⟩

/-- With nothing on the stream the core waits (R149). -/
theorem step_of_stream_nil {s : State} (h : s.stream = []) : step s = .fault .awaitingFrame := by
  rw [step_of_decode, h]
  rfl

/-- Settles O9: the run over the first `k` frames, and over all of them with the empty stream left. -/
theorem wholeFramesRunToTheEnd : Obligations.WholeFramesRunToTheEnd := by
  intro fs rest s hfs hs
  refine ⟨fun k hk => ?_, fun hrest => ?_⟩
  · have hsplit : s.stream = framesBytes (fs.take k) ++ (framesBytes (fs.drop k) ++ rest) := by
      rw [hs, ← List.append_assoc, ← framesBytes_append, List.take_append_drop]
    obtain ⟨t, ht, hrun⟩ := run_frames _ _ s (fun f hf => hfs f (List.mem_of_mem_take hf)) hsplit
    have hk0 := hrun 0
    rw [List.length_take_of_le hk, Nat.zero_add] at hk0
    exact ⟨t, hk0, ht⟩
  · obtain ⟨t, ht, hrun⟩ := run_frames rest fs s hfs hs
    rw [Nat.add_comm, hrun 1]
    exact run_succ_of_fault (M := core) (step_of_stream_nil (ht.trans hrest)) 0

/-! ## What the assembler accepts -/

/-- A line that emits no bytes is rejected. -/
theorem exists_error_of_ne_ok {ε α : Type} {x : Except ε α} (h : ∀ a, x ≠ .ok a) : ∃ e, x = .error e := by
  cases x with
  | error e => exact ⟨e, rfl⟩
  | ok a => exact absurd rfl (h a)

/-- Operands are accepted exactly if each is 0 to 255, and are then these bytes (R60). -/
theorem operandBytes_ok_iff (ops : List Nat) : ∀ bs : List Byte,
    operandBytes ops = .ok bs ↔ (∀ v ∈ ops, v ≤ 255) ∧ ops.map (BitVec.ofNat 8) = bs := by
  induction ops with
  | nil => intro bs; simp [operandBytes]
  | cons v vs ih =>
    intro bs
    by_cases hv : v ≤ 255
    · cases hvs : operandBytes vs with
      | error e =>
        have hnot : ¬ ∀ w ∈ vs, w ≤ 255 := fun h => by simpa [hvs] using (ih _).2 ⟨h, rfl⟩
        simp [operandBytes, hv, hvs, hnot]
      | ok cs =>
        obtain ⟨hle, rfl⟩ := (ih cs).1 hvs
        simpa [operandBytes, hv, hvs] using fun _ => hle
    · simp [operandBytes, hv]

/-- A command line is accepted exactly if it has at most 255 operands of 0 to 255 and its mnemonic has the suffix, and
emits the frame of the command they name (R60, R61). -/
theorem assembleLine_command_ok_iff {m : Mnemonic} {sfx : Option Suffix} {ops : List Nat} {bs : List Byte} :
    assembleLine (.command m sfx ops) = .ok bs ↔
      (∀ v ∈ ops, v ≤ 255) ∧ ops.length ≤ 255 ∧
      ∃ i, lineCommand m sfx (ops.map (BitVec.ofNat 8)) = .ok i ∧ encode i = bs := by
  cases hops : operandBytes ops with
  | error e =>
    have hnot : ¬ ∀ v ∈ ops, v ≤ 255 := fun h => by simpa [hops] using (operandBytes_ok_iff ops _).2 ⟨h, rfl⟩
    simp [assembleLine, hops, hnot]
  | ok p =>
    obtain ⟨hle, rfl⟩ := (operandBytes_ok_iff ops p).1 hops
    by_cases hlen : ops.length ≤ 255
    · cases hi : lineCommand m sfx (ops.map (BitVec.ofNat 8)) with
      | error e => simp [assembleLine, assembleCommand, hops, hlen, hi]
      | ok i => simpa [assembleLine, assembleCommand, hops, hlen, hi] using fun _ => hle
    · simp [assembleLine, assembleCommand, hops, hlen]

/-- The word of `.cmd` as the bytes of a stream (R63). -/
theorem bytes_ofNat (w : Nat) :
    CmdWord.bytes (BitVec.ofNat 16 w) = [BitVec.ofNat 8 (w / 256), BitVec.ofNat 8 (w % 256)] := by
  have hw : (BitVec.ofNat 16 w : CmdWord) = BitVec.ofNat 8 (w / 256) ++ BitVec.ofNat 8 (w % 256) := by
    apply BitVec.eq_of_toNat_eq
    rw [cmdWord_toNat]
    simp only [BitVec.toNat_ofNat]
    omega
  rw [hw, cmdWord_bytes]

/-- A `.cmd` line is accepted exactly if its word has 16 bits and there are `w[7:0]` operands of 0 to 255, and emits
the word and the operands (R63). -/
theorem assembleLine_raw_ok_iff {w : Nat} {ops : List Nat} {bs : List Byte} :
    assembleLine (.raw w ops) = .ok bs ↔
      (∀ v ∈ ops, v ≤ 255) ∧ w < 65536 ∧ ops.length = w % 256 ∧
      BitVec.ofNat 8 (w / 256) :: BitVec.ofNat 8 (w % 256) :: ops.map (BitVec.ofNat 8) = bs := by
  cases hops : operandBytes ops with
  | error e =>
    have hnot : ¬ ∀ v ∈ ops, v ≤ 255 := fun h => by simpa [hops] using (operandBytes_ok_iff ops _).2 ⟨h, rfl⟩
    simp [assembleLine, hops, hnot]
  | ok p =>
    obtain ⟨hle, rfl⟩ := (operandBytes_ok_iff ops p).1 hops
    by_cases hw : w < 65536
    · by_cases hlen : ops.length = w % 256
      · simpa [assembleLine, assembleRaw, hops, hw, hlen, bytes_ofNat] using fun _ => hle
      · simp [assembleLine, assembleRaw, hops, hw, hlen]
    · simp [assembleLine, assembleRaw, hops, hw]

/-- Settles O47. -/
theorem rawDirectiveEmitsWord : Obligations.RawDirectiveEmitsWord := by
  intro w ops hw hops
  refine ⟨fun hlen => assembleLine_raw_ok_iff.2 ⟨hops, hw, hlen, rfl⟩, fun hlen => ?_⟩
  refine exists_error_of_ne_ok fun bs h => ?_
  obtain ⟨_, _, hcount, _⟩ := assembleLine_raw_ok_iff.1 h
  exact hlen hcount

/-! ## Command lines -/

/-- Only DECOMPRESS has suffixes, those of its blue modes, but for `COMPRESS.RG` (R54, R62; log entry 12). -/
theorem lineCommand_suffixNotAllowed {m : Mnemonic} {sfx : Suffix} (h : m ≠ .decompress ∨ sfx = .rg)
    (hrg : ¬ (m = .compress ∧ sfx = .rg)) (p : List Byte) :
    lineCommand m (some sfx) p = .error .suffixNotAllowed := by
  cases m with
  | palgen | pack | unpack | quant => rfl
  | compress =>
    cases sfx with
    | rg => exact absurd ⟨rfl, rfl⟩ hrg
    | z | o | n | r => rfl
  | decompress =>
    obtain h | rfl := h
    · exact absurd rfl h
    · rfl

/-- Settles O45: each clause says for which lines the condition of `assembleLine_command_ok_iff` holds or fails. -/
theorem commandLinesAssemble : Obligations.CommandLinesAssemble := by
  refine ⟨fun ops hops hlen => ?_, fun m sfx ops hbad => ?_, fun m sfx ops hm hrg => ?_⟩
  · have accept : ∀ {m : Mnemonic} {sfx : Option Suffix} {i : Instr},
        lineCommand m sfx (ops.map (BitVec.ofNat 8)) = .ok i → assembleLine (.command m sfx ops) = .ok (encode i) :=
      fun hi => assembleLine_command_ok_iff.2 ⟨hops, hlen, _, hi, rfl⟩
    refine ⟨?_, ?_, ?_, ?_, ?_, ?_, ?_, ?_, ?_⟩ <;> exact accept rfl
  · refine exists_error_of_ne_ok fun bs h => ?_
    obtain ⟨hops, hlen, _⟩ := assembleLine_command_ok_iff.1 h
    obtain ⟨v, hv, hbig⟩ | hlong := hbad
    · exact absurd (hops v hv) (by omega)
    · omega
  · refine exists_error_of_ne_ok fun bs h => ?_
    obtain ⟨_, _, i, hi, _⟩ := assembleLine_command_ok_iff.1 h
    rw [lineCommand_suffixNotAllowed hm hrg] at hi
    cases hi

/-! ## The pseudo-commands -/

/-- Two lists of length `n` read index by index are the pairs of their zip. -/
theorem zip_eq_map_range {α : Type} (d : α) {xs ys : List α} {n : Nat} (hx : xs.length = n) (hy : ys.length = n) :
    xs.zip ys = (List.range n).map fun i => (xs.getD i d, ys.getD i d) := by
  apply List.ext_getElem
  · simp [hx, hy]
  · intro i h1 h2
    have hi : i < n := by simpa using h2
    simp [hx, hy, hi]

/-- The operands of the pixels `r, g, 0, 0` (R62). -/
def rgOperands (reds greens : List Nat) : List Nat := (reds.zip greens).flatMap fun rg => [rg.1, rg.2, 0, 0]

/-- As bytes they are the payload that `COMPRESS.RG` stands for. -/
theorem map_rgOperands (reds greens : List Nat) :
    (rgOperands reds greens).map (BitVec.ofNat 8) =
      rgPayload (reds.map (BitVec.ofNat 8)) (greens.map (BitVec.ofNat 8)) := by
  simp [rgOperands, rgPayload, List.map_flatMap, List.zip_map, List.flatMap_map]

theorem rgOperands_le {reds greens : List Nat} (h : ∀ v ∈ reds ++ greens, v ≤ 255) :
    ∀ v ∈ rgOperands reds greens, v ≤ 255 := by
  intro v hv
  obtain ⟨⟨r, g⟩, hmem, hv⟩ := List.mem_flatMap.1 hv
  obtain ⟨hr, hg⟩ := List.of_mem_zip hmem
  have hr := h r (List.mem_append_left _ hr)
  have hg := h g (List.mem_append_right _ hg)
  simp only [List.mem_cons, List.not_mem_nil, or_false] at hv
  omega

/-- Sixteen reds and sixteen greens make a payload of 64 bytes. -/
theorem rgPayload_length {reds greens : List Byte} (hr : reds.length = 16) (hg : greens.length = 16) :
    (rgPayload reds greens).length = 64 := by
  simp [rgPayload, hr, hg]

/-- `COMPRESS.RG` with sixteen reds and sixteen greens names COMPRESS of its expansion (R62). -/
theorem lineCommand_compress_rg {reds greens : List Byte} (hr : reds.length = 16) (hg : greens.length = 16) :
    lineCommand .compress (some .rg) (reds ++ greens) = .ok (.compress (rgPayload reds greens)) := by
  simp [lineCommand, hr, hg]

/-- Settles O46: both lines emit the frame of one command. -/
theorem pseudoCommandsExpand : Obligations.PseudoCommandsExpand := by
  refine ⟨fun _ => rfl, fun reds greens hr hg hops => ?_⟩
  have hpixels : ((List.range 16).flatMap fun i => [reds.getD i 0, greens.getD i 0, 0, 0]) =
      rgOperands reds greens := by
    rw [rgOperands, zip_eq_map_range 0 hr hg, List.flatMap_map]
  have hlen : (rgOperands reds greens).length = 64 := by
    rw [← List.length_map, map_rgOperands, rgPayload_length (by simpa using hr) (by simpa using hg)]
  have hrg : assembleLine (.command .compress (some .rg) (reds ++ greens)) =
      .ok (encode (.compress (rgPayload (reds.map (BitVec.ofNat 8)) (greens.map (BitVec.ofNat 8))))) := by
    refine assembleLine_command_ok_iff.2 ⟨hops, by simp [hr, hg], _, ?_, rfl⟩
    rw [List.map_append, lineCommand_compress_rg (by simpa using hr) (by simpa using hg)]
  rw [hrg, hpixels, ← map_rgOperands]
  exact (assembleLine_command_ok_iff.2 ⟨rgOperands_le hops, by omega, _, rfl, rfl⟩).symm

/-! ## The assembled stream -/

theorem wholeFrames_nil : WholeFrames [] := ⟨[], nofun, rfl⟩

theorem wholeFrames_append {bs cs : List Byte} (hb : WholeFrames bs) (hc : WholeFrames cs) :
    WholeFrames (bs ++ cs) := by
  obtain ⟨fs, hfs, rfl⟩ := hb
  obtain ⟨gs, hgs, rfl⟩ := hc
  exact ⟨fs ++ gs, List.forall_mem_append.2 ⟨hfs, hgs⟩, (framesBytes_append fs gs).symm⟩

theorem wholeFrames_frame {hi lo : Byte} {p : List Byte} (h : p.length = lo.toNat) : WholeFrames (hi :: lo :: p) :=
  ⟨[⟨hi, lo, p⟩], List.forall_mem_singleton.2 h, by simp [framesBytes]⟩

theorem wholeFrames_encode {i : Instr} (h : i.WellFormed) : WholeFrames (encode i) := by
  rw [encode_eq]
  exact wholeFrames_frame (toNat_len h).symm

/-- The command a line names carries the operands as its payload, or is the expansion of `COMPRESS.RG`. -/
theorem lineCommand_payload {m : Mnemonic} {sfx : Option Suffix} {p : List Byte} {i : Instr}
    (h : lineCommand m sfx p = .ok i) : i.payload = p ∨ i.payload.length = 64 := by
  unfold lineCommand at h
  split at h
  case h_6 => -- COMPRESS.RG
    split_ifs at h with hp
    cases h
    exact .inr (rgPayload_length (by simp [hp]) (by simp [hp]))
  all_goals cases h
  all_goals exact .inl rfl

/-- What a line emits is one complete frame (R60, R63). -/
theorem assembleLine_wholeFrames {l : AsmLine} {bs : List Byte} (h : assembleLine l = .ok bs) : WholeFrames bs := by
  cases l with
  | command m sfx ops =>
    obtain ⟨_, hlen, i, hi, rfl⟩ := assembleLine_command_ok_iff.1 h
    apply wholeFrames_encode
    obtain hp | hp := lineCommand_payload hi
    · rwa [Instr.WellFormed, hp, List.length_map]
    · rw [Instr.WellFormed, hp]; decide
  | raw w ops =>
    obtain ⟨_, _, hlen, rfl⟩ := assembleLine_raw_ok_iff.1 h
    exact wholeFrames_frame (by rw [toNat_len (by omega), List.length_map, hlen])

/-- Settles O48, by induction on the lines. -/
theorem assembledStreamIsWholeFrames : Obligations.AssembledStreamIsWholeFrames := by
  intro ls
  induction ls with
  | nil =>
    intro bs h
    cases h
    exact wholeFrames_nil
  | cons l ls ih =>
    intro bs h
    rw [assembleLines] at h
    split at h
    · cases h
    · next f hf =>
      split at h
      · cases h
      · next fs hfs =>
        cases h
        exact wholeFrames_append (assembleLine_wholeFrames hf) (ih fs hfs)

end Sys2Proof.Machine

/-! # The palette: endpoints, sentinels, bounds, order (O24 to O26)

A numerator that is no sentinel is the weighted sum of the endpoints in which `e1` has the entry's weight and `e0` the
rest of the denominator (`pal_numerator_weighted`). Its bounds and the order of the entries follow from the weights. -/

namespace Sys2Proof.Machine

open Sys2Proof.Claims

/-! ## Numerators as weighted sums -/

/-- The weight of the endpoint `e1` in entry `k` of a palette over `den` (R73, R74). -/
def endpointWeight (den : Nat) (k : Index) : Nat :=
  if k.toNat = 0 then 0 else if k.toNat = 1 then den else k.toNat - 1

/-- The entries that are no sentinels: all of the standard branch, the first six of the degenerate one (R74). -/
def Interpolated (e0 e1 : Byte) (k : Index) : Prop := e1.toNat < e0.toNat ∨ k.toNat < 6

theorem pal_den_standard {e0 e1 : Byte} (h : e1.toNat < e0.toNat) : (pal e0 e1).den = 7 := by
  rw [pal_den, denOf, if_pos h]

theorem pal_den_degenerate {e0 e1 : Byte} (h : e0.toNat ≤ e1.toNat) : (pal e0 e1).den = 5 := by
  rw [pal_den, denOf, if_neg h.not_gt]

theorem endpointWeight_le_den {e0 e1 : Byte} {k : Index} (h : Interpolated e0 e1 k) :
    endpointWeight (pal e0 e1).den k ≤ (pal e0 e1).den := by
  rw [endpointWeight]
  obtain hlt | hge := lt_or_ge e1.toNat e0.toNat
  · rw [pal_den_standard hlt]
    split_ifs <;> omega
  · have hk : k.toNat < 6 := h.resolve_left hge.not_gt
    rw [pal_den_degenerate hge]
    split_ifs <;> omega

/-- R73 and R74 as one formula for all entries but the sentinels. -/
theorem pal_numerator_weighted {e0 e1 : Byte} {k : Index} (h : Interpolated e0 e1 k) :
    (pal e0 e1).numerator k =
      ((pal e0 e1).den - endpointWeight (pal e0 e1).den k) * e0.toNat +
        endpointWeight (pal e0 e1).den k * e1.toNat := by
  rw [pal_numerator, palnOf, endpointWeight]
  obtain hlt | hge := lt_or_ge e1.toNat e0.toNat
  · rw [pal_den_standard hlt, if_pos hlt]
    split_ifs with h0 h1
    · simp
    · simp
    · rw [show 8 - k.toNat = 7 - (k.toNat - 1) by omega]
  · have hk : k.toNat < 6 := h.resolve_left hge.not_gt
    rw [pal_den_degenerate hge, if_neg hge.not_gt]
    split_ifs with h0 h1 h6 h7
    · simp
    · simp
    · omega
    · omega
    · rw [show 6 - k.toNat = 5 - (k.toNat - 1) by omega]

/-! ## Endpoints and sentinels -/

/-- R75 as the host sees it: no bit of the floor is lost in the byte. -/
theorem pal_byte_toNat_eq_div (e0 e1 : Byte) (k : Index) :
    ((pal e0 e1).byte k).toNat = (pal e0 e1).numerator k / (pal e0 e1).den := by
  rw [pal_byte_toNat, palbOf, pal_numerator, pal_den]

theorem pal_den_pos (e0 e1 : Byte) : 0 < (pal e0 e1).den := by
  rw [pal_den, denOf]
  split <;> decide

/-- A numerator that is a byte over the denominator denormalises to that byte. -/
theorem pal_byte_of_numerator {e0 e1 b : Byte} {k : Index}
    (h : (pal e0 e1).numerator k = (pal e0 e1).den * b.toNat) : (pal e0 e1).byte k = b := by
  apply BitVec.eq_of_toNat_eq
  rw [pal_byte_toNat_eq_div, h, Nat.mul_div_cancel_left _ (pal_den_pos e0 e1)]

theorem pal_numerator_zero (e0 e1 : Byte) : (pal e0 e1).numerator 0 = (pal e0 e1).den * e0.toNat := by
  rw [pal_numerator_weighted (.inr (by decide))]
  simp [endpointWeight]

theorem pal_numerator_one (e0 e1 : Byte) : (pal e0 e1).numerator 1 = (pal e0 e1).den * e1.toNat := by
  rw [pal_numerator_weighted (.inr (by decide))]
  simp [endpointWeight]

theorem pal_numerator_six {e0 e1 : Byte} (h : e0.toNat ≤ e1.toNat) : (pal e0 e1).numerator 6 = 0 := by
  rw [pal_numerator, palnOf, if_neg h.not_gt]
  rfl

theorem pal_numerator_seven {e0 e1 : Byte} (h : e0.toNat ≤ e1.toNat) : (pal e0 e1).numerator 7 = 1275 := by
  rw [pal_numerator, palnOf, if_neg h.not_gt]
  rfl

/-- Settles O24: the endpoints and the sentinels are bytes over the denominator, so their floors are exact. -/
theorem paletteEndpointsAndSentinels : Obligations.PaletteEndpointsAndSentinels := by
  intro e0 e1
  have h0 := pal_numerator_zero e0 e1
  have h1 := pal_numerator_one e0 e1
  refine ⟨pal_byte_toNat_eq_div e0 e1, pal_byte_of_numerator h0, pal_byte_of_numerator h1, h0, h1, fun hle => ?_⟩
  have hden := pal_den_degenerate hle
  have h6 := pal_numerator_six hle
  have h7 := pal_numerator_seven hle
  refine ⟨hden, h6, h7, pal_byte_of_numerator ?_, pal_byte_of_numerator ?_⟩
  · rw [h6]; rfl
  · rw [h7, hden]; rfl

/-! ## Bounds -/

/-- A weighted sum of two numbers lies between the scaled smaller and the scaled larger one. -/
theorem weightedSum_between {d w : Nat} (hw : w ≤ d) (a b : Nat) :
    d * min a b ≤ (d - w) * a + w * b ∧ (d - w) * a + w * b ≤ d * max a b := by
  have hsplit (m : Nat) : d * m = (d - w) * m + w * m := by rw [← Nat.add_mul, Nat.sub_add_cancel hw]
  rw [hsplit, hsplit]
  exact ⟨by gcongr <;> simp, by gcongr <;> simp⟩

/-- Settles O25: an interpolated numerator is a weighted sum of the endpoints, and the sentinel 1275 is 255 over 5. -/
theorem paletteNumeratorsBounded : Obligations.PaletteNumeratorsBounded := by
  intro e0 e1 k
  have hle := pal_numerator_le e0 e1 k
  have hden := pal_den_le e0 e1
  refine ⟨hle, by omega, fun h => ?_⟩
  rw [pal_numerator_weighted h]
  exact weightedSum_between (endpointWeight_le_den h) _ _

/-! ## The order of the entries -/

/-- Moving weight from the larger of two numbers to the smaller makes the weighted sum smaller. -/
theorem weightedSum_lt {d v w a b : Nat} (hvw : v < w) (hw : w ≤ d) (hab : b < a) :
    (d - w) * a + w * b < (d - v) * a + v * b := by
  have hpos : 0 < w - v := Nat.sub_pos_of_lt hvw
  calc (d - w) * a + w * b
      = (d - w) * a + (w - v) * b + v * b := by rw [Nat.add_assoc, ← Nat.add_mul, Nat.sub_add_cancel hvw.le]
    _ < (d - w) * a + (w - v) * a + v * b := by gcongr
    _ = (d - v) * a + v * b := by rw [← Nat.add_mul, Nat.sub_add_sub_cancel hw hvw.le]

/-- In the standard branch an entry with more of `e1` is smaller (R78). -/
theorem pal_numerator_lt_standard {e0 e1 : Byte} (h : e1.toNat < e0.toNat) {k j : Index}
    (hw : endpointWeight 7 k < endpointWeight 7 j) : (pal e0 e1).numerator j < (pal e0 e1).numerator k := by
  rw [pal_numerator_weighted (.inl h), pal_numerator_weighted (.inl h)]
  rw [← pal_den_standard h] at hw
  exact weightedSum_lt hw (endpointWeight_le_den (.inl h)) h

/-- In the degenerate branch an interpolated entry with more of `e1` is greater (R78). -/
theorem pal_numerator_lt_degenerate {e0 e1 : Byte} (h : e0.toNat < e1.toNat) {k j : Index} (hk : k.toNat < 6)
    (hj : j.toNat < 6) (hw : endpointWeight 5 k < endpointWeight 5 j) :
    (pal e0 e1).numerator k < (pal e0 e1).numerator j := by
  rw [pal_numerator_weighted (.inr hk), pal_numerator_weighted (.inr hj)]
  rw [← pal_den_degenerate h.le] at hw
  have hle := endpointWeight_le_den (e0 := e0) (e1 := e1) (.inr hj)
  have hsum := weightedSum_lt (Nat.sub_lt_sub_left (hw.trans_le hle) hw) (Nat.sub_le _ _) h
  rwa [Nat.sub_sub_self hle, Nat.sub_sub_self (hw.le.trans hle), Nat.add_comm, Nat.add_comm (_ * e1.toNat)] at hsum

/-- Between equal endpoints every interpolated entry is the endpoint itself (R78). -/
theorem pal_numerator_of_equal (e : Byte) {k : Index} (hk : k.toNat < 6) :
    (pal e e).numerator k = (pal e e).den * e.toNat := by
  have hw : Interpolated e e k := .inr hk
  rw [pal_numerator_weighted hw, ← Nat.add_mul, Nat.sub_add_cancel (endpointWeight_le_den hw)]

/-- The sentinels of the degenerate branch are the least and the greatest entry (R78). -/
theorem pal_numerator_between_sentinels {e0 e1 : Byte} (h : e0.toNat ≤ e1.toNat) (k : Index) :
    (pal e0 e1).numerator 6 ≤ (pal e0 e1).numerator k ∧ (pal e0 e1).numerator k ≤ (pal e0 e1).numerator 7 := by
  have hle := pal_numerator_le e0 e1 k
  rw [pal_den_degenerate h] at hle
  rw [pal_numerator_six h, pal_numerator_seven h]
  exact ⟨Nat.zero_le _, hle⟩

/-- Settles O26: along each of the index orders the weights of `e1` increase. -/
theorem paletteValueOrder : Obligations.PaletteValueOrder := by
  intro e0 e1
  refine ⟨fun h => ?_, fun h => ?_, pal_numerator_between_sentinels, ?_⟩
  · have hweights : ([0, 2, 3, 4, 5, 6, 7, 1] : List Index).Pairwise
        fun k j => endpointWeight 7 k < endpointWeight 7 j := by decide
    exact hweights.imp (pal_numerator_lt_standard h)
  · have hweights : ([0, 2, 3, 4, 5, 1] : List Index).Pairwise
        fun k j => k.toNat < 6 ∧ j.toNat < 6 ∧ endpointWeight 5 k < endpointWeight 5 j := by decide
    exact hweights.imp fun ⟨hk, hj, hw⟩ => pal_numerator_lt_degenerate h hk hj hw
  · rintro rfl k hk
    rw [pal_numerator_of_equal e0 hk, pal_numerator_zero]

end Sys2Proof.Machine

/-! # The index packer: the field's bits and its number, PACK, UNPACK, IndexRange (O11, O27 to O30)

Where each bit of the field comes from is said once for the indices (`packField_getLsbD`) and once for the six bytes
(`fieldOfBytes_getLsbD`); the round trips and the byte table follow bit by bit. The results of PACK and UNPACK as
numbers are those of the field, and only PACK finds errors in its payload. -/

namespace Sys2Proof.Machine

open Sys2Proof.Claims

/-! ## The field's bits -/

/-- Bit `k` of the field is bit `k % 3` of index `k / 3` (R81). -/
theorem packField_getLsbD (idx : Vector Index 16) {k : Nat} (h : k < 48) :
    (packField idx).getLsbD k = idx[k / 3].getLsbD (k % 3) := by
  simp only [packField, BitVec.getLsbD_append]
  interval_cases k <;> rfl

/-- Bit `k` of six bytes is bit `k % 8` of the byte `k / 8` places before the last (R40). -/
theorem fieldOfBytes_getLsbD (b : Vector Byte 6) {k : Nat} (h : k < 48) :
    (fieldOfBytes b).getLsbD k = b[5 - k / 8].getLsbD (k % 8) := by
  simp only [fieldOfBytes, BitVec.getLsbD_append]
  interval_cases k <;> rfl

theorem unpackField_getElem (v : IndexField) {i : Nat} (h : i < 16) :
    (unpackField v)[i] = v.extractLsb' (3 * i) 3 := by
  simp [unpackField]

theorem fieldBytes_getElem (v : IndexField) {j : Nat} (h : j < 6) :
    (fieldBytes v)[j] = v.extractLsb' (40 - 8 * j) 8 := by
  simp [fieldBytes]

/-! ## Round trips -/

theorem unpackField_packField (idx : Vector Index 16) : unpackField (packField idx) = idx := by
  ext i hi b hb
  have hdiv : (3 * i + b) / 3 = i := by omega
  have hmod : (3 * i + b) % 3 = b := by omega
  rw [unpackField_getElem _ hi, BitVec.getElem_extractLsb', packField_getLsbD _ (by omega)]
  simp only [hdiv, hmod, BitVec.getLsbD_eq_getElem hb]

theorem packField_unpackField (v : IndexField) : packField (unpackField v) = v := by
  apply BitVec.eq_of_getLsbD_eq
  intro k hk
  rw [packField_getLsbD _ hk, unpackField_getElem _ (by omega), BitVec.getLsbD_extractLsb']
  simp [Nat.mod_lt, Nat.div_add_mod]

theorem fieldBytes_fieldOfBytes (b : Vector Byte 6) : fieldBytes (fieldOfBytes b) = b := by
  ext j hj k hk
  have hdiv : 5 - (40 - 8 * j + k) / 8 = j := by omega
  have hmod : (40 - 8 * j + k) % 8 = k := by omega
  rw [fieldBytes_getElem _ hj, BitVec.getElem_extractLsb', fieldOfBytes_getLsbD _ (by omega)]
  simp only [hdiv, hmod, BitVec.getLsbD_eq_getElem hk]

theorem fieldOfBytes_fieldBytes (v : IndexField) : fieldOfBytes (fieldBytes v) = v := by
  apply BitVec.eq_of_getLsbD_eq
  intro k hk
  have hbit : 40 - 8 * (5 - k / 8) + k % 8 = k := by omega
  rw [fieldOfBytes_getLsbD _ hk, fieldBytes_getElem _ (by omega), BitVec.getLsbD_extractLsb', hbit]
  simp [Nat.mod_lt]

/-- Settles O29: the field has the sixteen indices and the six bytes as its slices. -/
theorem packUnpackInverse : Obligations.PackUnpackInverse := by
  refine ⟨fun idx => ?_, fun b => ?_⟩
  · rw [unpack48, pack48, fieldOfBytes_fieldBytes, unpackField_packField]
  · rw [pack48, unpack48, packField_unpackField, fieldBytes_fieldOfBytes]

/-! ## The byte table -/

/-- Bit `k` of byte `j` of PACK48 (R83). -/
theorem pack48_getLsbD (idx : Vector Index 16) {j k : Nat} (hj : j < 6) (hk : k < 8) :
    (pack48 idx)[j].getLsbD k = idx[(40 - 8 * j + k) / 3].getLsbD ((40 - 8 * j + k) % 3) := by
  simp only [pack48, fieldBytes_getElem _ hj, BitVec.getLsbD_extractLsb', hk, decide_true, Bool.true_and]
  exact packField_getLsbD idx (by omega)

/-- A byte of PACK48 is known by its eight bits. -/
theorem pack48_eq_of_bits {idx : Vector Index 16} {j : Nat} {b : Byte} (hj : j < 6)
    (h : ∀ k : Fin 8, idx[(40 - 8 * j + k) / 3].getLsbD ((40 - 8 * j + k) % 3) = b.getLsbD k) :
    (pack48 idx)[j] = b := by
  apply BitVec.eq_of_getLsbD_eq
  intro k hk
  rw [pack48_getLsbD idx hj hk]
  exact h ⟨k, hk⟩

/-- Settles O30, bit by bit. -/
theorem fieldByteTable : Obligations.FieldByteTable := by
  intro idx
  refine ⟨?_, ?_, ?_, ?_, ?_, ?_⟩
  all_goals
    refine pack48_eq_of_bits (by decide) fun k => ?_
    simp only [BitVec.getLsbD_append, BitVec.getLsbD_extractLsb']
    fin_cases k <;> rfl

/-! ## Fields as numbers of the statements -/

theorem byteAt_toList {n : Nat} (x : Vector Byte n) {i : Nat} (h : i < n) : byteAt x.toList i = x[i].toNat := by
  simp [byteAt, h]

/-- A payload of the required length is a vector of bytes. -/
theorem exists_vector_of_length {n : Nat} {p : List Byte} (h : p.length = n) : ∃ x : Vector Byte n, x.toList = p :=
  ⟨⟨p.toArray, by simp [h]⟩, rfl⟩

/-- The six bytes from `start` on, as a number, are the field of these bytes (R40). -/
theorem fieldAt_eq_toNat {p : List Byte} {start : Nat} {b : Vector Byte 6}
    (h : ∀ j, (hj : j < 6) → byteAt p (start + j) = b[j].toNat) : fieldAt p start = (fieldOfBytes b).toNat := by
  rw [fieldOfBytes_toNat, ← h 0, ← h 1, ← h 2, ← h 3, ← h 4, ← h 5]
  simp [fieldAt, Finset.sum_range_succ]

theorem fieldAt_toList (b : Vector Byte 6) : fieldAt b.toList 0 = (fieldOfBytes b).toNat :=
  fieldAt_eq_toNat fun j hj => by rw [Nat.zero_add, byteAt_toList b hj]

/-- The number whose base-8 digits are some indices is the field of these indices (R81). -/
theorem fieldOfIndices_eq_toNat {p : List Byte} {idx : Vector Index 16}
    (h : ∀ i, (hi : i < 16) → byteAt p i = idx[i].toNat) : fieldOfIndices p = (packField idx).toNat := by
  rw [packField_toNat, ← h 0, ← h 1, ← h 2, ← h 3, ← h 4, ← h 5, ← h 6, ← h 7, ← h 8, ← h 9, ← h 10, ← h 11,
    ← h 12, ← h 13, ← h 14, ← h 15]
  simp [fieldOfIndices, Finset.sum_range_succ]

/-- A byte of at most 7 is its index. -/
theorem indexVectorOf_toNat {x : Vector Byte 16} {i : Nat} (hi : i < 16) (h : x[i].toNat ≤ 7) :
    (indexVectorOf x)[i].toNat = x[i].toNat := by
  rw [indexVectorOf_getElem x i hi, BitVec.extractLsb'_toNat, Nat.shiftRight_zero]
  omega

/-! ## PACK -/

/-- A byte has bits [7:3] zero exactly if it is at most 7 (R84). -/
theorem highBits_eq_zero_iff (b : Byte) : b.extractLsb' 3 5 = 0 ↔ b.toNat ≤ 7 := by
  rw [← BitVec.toNat_inj, BitVec.extractLsb'_toNat, Nat.shiftRight_eq_div_pow]
  simp only [BitVec.ofNat_eq_ofNat, BitVec.toNat_ofNat]
  omega

/-- The check of PACK passes exactly if every payload byte is at most 7 (R84). -/
theorem indicesInRange_iff (x : Vector Byte 16) : indicesInRange x = true ↔ ∀ i < 16, byteAt x.toList i ≤ 7 := by
  simp only [indicesInRange, List.all_eq_true, beq_iff_eq, highBits_eq_zero_iff]
  constructor
  · intro h i hi
    rw [byteAt_toList x hi]
    exact h _ (by simp)
  · intro h b hb
    obtain ⟨i, hi, rfl⟩ := Vector.getElem_of_mem (Vector.mem_toList_iff.1 hb)
    rw [← byteAt_toList x hi]
    exact h i hi

theorem packResult_of_le {x : Vector Byte 16} (h : ∀ i < 16, byteAt x.toList i ≤ 7) :
    packResult x = .ok (pack48 (indexVectorOf x)) := by
  rw [packResult, if_pos ((indicesInRange_iff x).2 h)]

/-- IndexRange is what PACK finds in a payload exactly if a byte of it is above 7 (R84). -/
theorem packResult_indexRange_iff (x : Vector Byte 16) :
    packResult x = .error .indexRange ↔ ∃ i < 16, 7 < byteAt x.toList i := by
  have hrange := indicesInRange_iff x
  cases h : indicesInRange x with
  | true => simpa [packResult, h] using hrange.1 h
  | false => simpa [packResult, h] using hrange

/-- The six bytes of PACK as a number, for indices in range (R82, R83). -/
theorem fieldAt_pack48 {x : Vector Byte 16} (h : ∀ i < 16, byteAt x.toList i ≤ 7) :
    fieldAt (pack48 (indexVectorOf x)).toList 0 = fieldOfIndices x.toList := by
  rw [fieldAt_toList, pack48, fieldOfBytes_fieldBytes]
  refine (fieldOfIndices_eq_toNat fun i hi => ?_).symm
  have hle := h i hi
  rw [byteAt_toList x hi] at hle ⊢
  rw [indexVectorOf_toNat hi hle]

/-- A payload in which the command's function finds an error ends in that error. -/
theorem runCommand_error {n m : Nat} {f : Vector Byte n → Except Err (Vector Byte m)} {x : Vector Byte n}
    {e : Err} (h : f x = .error e) (s : State) : runCommand f x.toList s = .next (raiseError e s) := by
  have hx : checkedPayload n x.toList = some x := checkedPayload_some x.length_toList
  simp [runCommand, hx, h]

/-- PACK of sixteen bytes one of which is above 7 raises IndexRange (R84, R123). -/
theorem pack_raises_indexRange {p : List Byte} (hlen : p.length = 16) (h : ∃ i < 16, 7 < byteAt p i) (s : State) :
    Raises (.pack p) s 3 := by
  obtain ⟨x, rfl⟩ := exists_vector_of_length hlen
  exact raises_of_raiseError (e := .indexRange) (runCommand_error ((packResult_indexRange_iff x).2 h) s)

/-- Settles O27: the result's number is the field's, and a byte above 7 is out of range. -/
theorem packGivesIndexField : Obligations.PackGivesIndexField := by
  refine ⟨?_, illegalUnless_of_legal (by decide), fun p s hlen => ⟨fun hle => ?_, fun h => ?_⟩⟩
  · exact commandFrame_of_select (fun _ => packResult) (fun lo p => select_eq 2 lo p) fun _ _ => rfl
  · obtain ⟨x, rfl⟩ := exists_vector_of_length hlen
    have hexec := runCommand_ok (packResult_of_le hle) s
    exact ⟨_, answers_of_resultComplete (by decide) hexec, Vector.length_toList, fieldAt_pack48 hle⟩
  · exact pack_raises_indexRange hlen h s

/-! ## UNPACK -/

/-- Byte `i` of the result of UNPACK (R85, R86). -/
theorem byteAt_indexVectorBytes_unpack48 (b : Vector Byte 6) {i : Nat} (hi : i < 16) :
    byteAt (indexVectorBytes (unpack48 b)).toList i = indexOf (fieldAt b.toList 0) i := by
  rw [byteAt_toList _ hi, indexVectorBytes_getElem _ _ hi, indexByte_toNat, fieldAt_toList]
  exact unpackField_toNat (fieldOfBytes b) ⟨i, hi⟩

/-- Settles O28: any six bytes complete with the indices of their field. -/
theorem unpackGivesIndexVector : Obligations.UnpackGivesIndexVector := by
  refine ⟨?_, illegalUnless_of_legal (by decide), fun p s hlen => ?_⟩
  · exact commandFrame_of_select (fun _ => unpackResult) (fun lo p => select_eq 3 lo p) fun _ _ => rfl
  · obtain ⟨b, rfl⟩ := exists_vector_of_length hlen
    have hexec := runCommand_ok (f := unpackResult) (x := b) rfl s
    exact ⟨_, answers_of_resultComplete (by decide) hexec, Vector.length_toList,
      fun _ hi => byteAt_indexVectorBytes_unpack48 b hi⟩

/-! ## IndexRange -/

/-- `STATUS` is 3 after no other error than IndexRange (R120). -/
theorem hostReadStatus_raiseError_eq_three {e : Err} {s : State} (h : hostReadStatus (raiseError e s) = 3) :
    e = .indexRange := by
  have hcode : (0 : BitVec 5) ++ e.code = 3 := h
  cases e with
  | indexRange => rfl
  | invalidLength | illegalCommand => exact absurd hcode (by decide)

/-- A command that ends in IndexRange has found it in a payload of the required length (R126). -/
theorem runCommand_indexRange {n m : Nat} (f : Vector Byte n → Except Err (Vector Byte m)) {p : List Byte}
    {s t : State} (h : runCommand f p s = .next t) (ht : hostReadStatus t = 3) :
    ∃ x : Vector Byte n, x.toList = p ∧ f x = .error .indexRange := by
  obtain ⟨_, hrun⟩ | ⟨_, e, hf, hrun⟩ | ⟨_, r, _, hrun⟩ := runCommand_cases f p s
  all_goals
    rw [hrun] at h
    cases h
  · cases hostReadStatus_raiseError_eq_three ht
  · cases hostReadStatus_raiseError_eq_three ht
    exact ⟨_, rfl, hf⟩
  · have hok : (0 : BitVec 5) ++ okCode = 3 := ht
    exact absurd hok (by decide)

/-- A command whose function finds no error in any payload does not end in IndexRange. -/
theorem runCommand_status_ne_three {n m : Nat} (f : Vector Byte n → Except Err (Vector Byte m))
    (hf : ∀ x, ∃ r, f x = .ok r) {p : List Byte} {s t : State} (h : runCommand f p s = .next t) :
    hostReadStatus t ≠ 3 := by
  intro ht
  obtain ⟨x, _, herr⟩ := runCommand_indexRange f h ht
  obtain ⟨r, hok⟩ := hf x
  cases herr.symm.trans hok

/-- Settles O11: of the nine commands only PACK finds errors in its payload. -/
theorem indexRangeExactlyFromPack : Obligations.IndexRangeExactlyFromPack := by
  refine ⟨fun p s hlen h => pack_raises_indexRange hlen h s, fun i s t h ht => ?_⟩
  cases i with
  | pack p =>
    obtain ⟨x, rfl, hx⟩ := runCommand_indexRange packResult h ht
    exact ⟨_, rfl, Vector.length_toList, (packResult_indexRange_iff x).1 hx⟩
  | palgen => exact absurd ht (runCommand_status_ne_three palgenResult (fun _ => ⟨_, rfl⟩) h)
  | unpack => exact absurd ht (runCommand_status_ne_three unpackResult (fun _ => ⟨_, rfl⟩) h)
  | quant => exact absurd ht (runCommand_status_ne_three quantResult (fun _ => ⟨_, rfl⟩) h)
  | compress => exact absurd ht (runCommand_status_ne_three compressResult (fun _ => ⟨_, rfl⟩) h)
  | decompressZ | decompressO | decompressN | decompressR =>
    exact absurd ht (runCommand_status_ne_three (decompressResult _ s.blueSel) (fun _ => ⟨_, rfl⟩) h)

end Sys2Proof.Machine

/-! # The quantizer: the nearest index, QUANT, and the indices of COMPRESS (O31 to O33, O43)

`nearest_spec` compares numerators on the palette's scale. Divided by `255 * DEN` its distances are those of the
document; with the endpoints around the sample they rule out the sentinels. A channel of COMPRESS is the packed QUANT
result of its least and its greatest sample (`compressBlock_getElem`). -/

namespace Sys2Proof.Machine

open Sys2Proof.Claims

/-! ## The nearest index -/

theorem distance_eq_abs (a b : Nat) : (distance a b : Int) = |(a : Int) - (b : Int)| :=
  Int.natCast_natAbs _

/-- The distance that the loop of R92 compares is that of the closed forms. -/
theorem pal_distance (e0 e1 p : Byte) (k : Index) :
    (distance ((pal e0 e1).den * p.toNat) ((pal e0 e1).numerator k) : Int) =
      distOf e0.toNat e1.toNat p.toNat k.toNat := by
  rw [distance_eq_abs, pal_den, pal_numerator, distOf]

/-- NEAREST as a number is the lowest nearest index by the closed forms (R92, R93). -/
theorem nearest_isNearest (e0 e1 p : Byte) :
    IsNearest e0.toNat e1.toNat p.toNat (nearest (pal e0 e1) p).toNat := by
  refine ⟨(nearest (pal e0 e1) p).isLt, fun j hj => ?_⟩
  obtain ⟨j, rfl⟩ : ∃ k : Index, k.toNat = j := ⟨BitVec.ofNatLT j hj, rfl⟩
  obtain ⟨hle, hlt⟩ := nearest_spec (pal e0 e1) p j
  rw [← pal_distance, ← pal_distance]
  exact ⟨mod_cast hle, fun hjk => mod_cast hlt hjk⟩

/-- The document's distance is that of R92 over the palette's scale (R95). -/
theorem abs_normalised_sub (pl : Palette) (p : Byte) (k : Index) (hden : 0 < pl.den) :
    |(p.toNat : ℚ) / 255 - (pl.numerator k : ℚ) / (255 * pl.den)| =
      (distance (pl.den * p.toNat) (pl.numerator k) : ℚ) / (255 * pl.den) := by
  have hscale : (0 : ℚ) < 255 * pl.den := by positivity
  have hdist := congrArg (Int.cast : Int → ℚ) (distance_eq_abs (pl.den * p.toNat) (pl.numerator k))
  push_cast at hdist
  calc |(p.toNat : ℚ) / 255 - (pl.numerator k : ℚ) / (255 * pl.den)|
      = |(pl.den * p.toNat - pl.numerator k : ℚ) / (255 * pl.den)| := by congr 1; field_simp
    _ = |(pl.den * p.toNat - pl.numerator k : ℚ)| / (255 * pl.den) := by rw [abs_div, abs_of_pos hscale]
    _ = (distance (pl.den * p.toNat) (pl.numerator k) : ℚ) / (255 * pl.den) := by rw [hdist]

/-- Settles O32: the scale of the palette is positive, so dividing by it keeps every comparison. -/
theorem nearestIsTheDocumentsSelection : Obligations.NearestIsTheDocumentsSelection := by
  intro e0 e1 p j value k
  obtain ⟨hle, hlt⟩ := nearest_spec (pal e0 e1) p j
  have hden := pal_den_pos e0 e1
  simp only [value, k, abs_normalised_sub _ _ _ hden]
  exact ⟨by gcongr, fun hjk => by gcongr; exact hlt hjk⟩

/-- An index is not NEAREST's if a lower one is at least as near (R93). -/
theorem nearest_ne_of_lower {pl : Palette} {p : Byte} {j k : Index} (hjk : j.toNat < k.toNat)
    (hle : distance (pl.den * p.toNat) (pl.numerator j) ≤ distance (pl.den * p.toNat) (pl.numerator k)) :
    nearest pl p ≠ k := by
  rintro rfl
  exact ((nearest_spec pl p j).2 hjk).not_ge hle

/-- Between the endpoints neither sentinel is selected: `lo` is at least as near as 0, `hi` at least as near as 1
(R96). -/
theorem nearest_le_five {lo hi p : Byte} (hlo : lo.toNat ≤ p.toNat) (hhi : p.toNat ≤ hi.toNat) :
    (nearest (pal lo hi) p).toNat ≤ 5 := by
  have hle := hlo.trans hhi
  have hden := pal_den_degenerate hle
  have h6 : nearest (pal lo hi) p ≠ 6 := by
    refine nearest_ne_of_lower (j := 0) (by decide) ?_
    rw [pal_numerator_zero, pal_numerator_six hle, hden, distance, distance]
    omega
  have h7 : nearest (pal lo hi) p ≠ 7 := by
    refine nearest_ne_of_lower (j := 1) (by decide) ?_
    rw [pal_numerator_one, pal_numerator_seven hle, hden, distance, distance]
    omega
  have hlast : ∀ k : Index, k ≠ 6 → k ≠ 7 → k.toNat ≤ 5 := by decide
  exact hlast _ h6 h7

/-! ## QUANT -/

theorem quantSamples_append (e0 e1 : Byte) (px : Vector Byte 16) : quantSamples (#v[e0, e1] ++ px) = px := by
  ext i hi : 1
  have hright := Vector.getElem_append_right (xs := #v[e0, e1]) (ys := px) (Nat.add_lt_add_left hi 2) (by omega)
  rw [quantSamples_getElem _ _ hi]
  simpa only [Nat.add_sub_cancel_left] using hright

/-- QUANT completes with the lowest nearest index of each sample, whichever endpoint is the larger (R91). -/
theorem exec_quant (e0 e1 : Byte) (px : Vector Byte 16) (s : State) :
    exec (.quant (e0 :: e1 :: px.toList)) s =
      .next (resultComplete (indexVectorBytes (quantize (pal e0 e1) px)) s) := by
  have hresult : quantResult (#v[e0, e1] ++ px) = .ok (indexVectorBytes (quantize (pal e0 e1) px)) := by
    rw [quantResult, quantSamples_append, Vector.getElem_append_left Nat.zero_lt_two,
      Vector.getElem_append_left Nat.one_lt_two]
    rfl
  have hrun := runCommand_ok hresult s
  rwa [Vector.toList_append] at hrun

theorem byteAt_indexVectorBytes (idx : Vector Index 16) {i : Nat} (hi : i < 16) :
    byteAt (indexVectorBytes idx).toList i = idx[i].toNat := by
  rw [byteAt_toList _ hi, indexVectorBytes_getElem _ _ hi, indexByte_toNat]

/-- Settles O31: any two endpoints and sixteen samples complete with the nearest index in every lane. -/
theorem quantGivesNearestIndices : Obligations.QuantGivesNearestIndices := by
  refine ⟨?_, illegalUnless_of_legal (by decide), fun p s hlen => ?_⟩
  · exact commandFrame_of_select (fun _ => quantResult) (fun lo p => select_eq 4 lo p) fun _ _ => rfl
  · obtain ⟨e0, e1, samples, rfl⟩ : ∃ e0 e1 samples, p = e0 :: e1 :: samples := by
      match p, hlen with
      | e0 :: e1 :: samples, _ => exact ⟨e0, e1, samples, rfl⟩
    obtain ⟨px, rfl⟩ := exists_vector_of_length (n := 16) (by simpa using hlen)
    refine ⟨_, answers_of_resultComplete (by decide) (exec_quant e0 e1 px s), Vector.length_toList, fun i hi => ?_⟩
    have hsample : byteAt (e0 :: e1 :: px.toList) (2 + i) = px[i].toNat := by
      rw [← byteAt_toList px hi, Nat.add_comm]
      rfl
    rw [byteAt_indexVectorBytes _ hi, quantize_getElem _ _ _ hi, hsample]
    exact nearest_isNearest e0 e1 px[i]

/-! ## COMPRESS -/

/-- The indices of a channel: its samples quantized between the least and the greatest of them (R104). -/
def channelIndices (px : Vector Byte 16) : Vector Index 16 := quantize (pal (lowest px) (highest px)) px

/-- The EncodedBlock of a pixel block (R101). -/
def compressBlock (x : Vector Byte 64) : Vector Byte 16 :=
  encodedBlock (compressChannel (channelSamples 0 x)) (compressChannel (channelSamples 1 x))

theorem exec_compress (x : Vector Byte 64) (s : State) :
    exec (.compress x.toList) s = .next (resultComplete (compressBlock x) s) :=
  runCommand_ok (f := compressResult) rfl s

/-- The bytes of a channel of an EncodedBlock: the least and the greatest sample, since the endpoints denormalise to
themselves, then the field of the indices (R39, R103 to R105). -/
theorem compressBlock_getElem (x : Vector Byte 64) (c : Fin 2) :
    (compressBlock x)[8 * c.val] = lowest (channelSamples c x) ∧
    (compressBlock x)[8 * c.val + 1] = highest (channelSamples c x) ∧
    ∀ j, (hj : j < 6) →
      (compressBlock x)[8 * c.val + 2 + j] = (pack48 (channelIndices (channelSamples c x)))[j] := by
  have hblock (j : Nat) (hj : j < 8) :
      (compressBlock x)[8 * c.val + j] = (compressChannel (channelSamples c x))[j] := by
    obtain ⟨hred, hgreen⟩ :=
      encodedBlock_getElem (compressChannel (channelSamples 0 x)) (compressChannel (channelSamples 1 x)) j hj
    match c with
    | 0 => simpa [compressBlock] using hred
    | 1 => simpa [compressBlock] using hgreen
  obtain ⟨hlo, hhi, hfield⟩ := compressChannel_getElem (channelSamples c x)
  refine ⟨?_, ?_, fun j hj => ?_⟩
  · exact ((hblock 0 (by decide)).trans hlo).trans (pal_byte_of_numerator (k := 0) (pal_numerator_zero _ _))
  · exact ((hblock 1 (by decide)).trans hhi).trans (pal_byte_of_numerator (k := 1) (pal_numerator_one _ _))
  · simpa only [Nat.add_assoc, channelIndices] using (hblock (2 + j) (by omega)).trans (hfield j hj)

/-- Where the six bytes from `start` on are a packed field, its indices are those packed (R86, R87). -/
theorem indexOf_fieldAt_of_pack48 {r : List Byte} {start : Nat} {idx : Vector Index 16}
    (h : ∀ j, (hj : j < 6) → byteAt r (start + j) = (pack48 idx)[j].toNat) {i : Nat} (hi : i < 16) :
    indexOf (fieldAt r start) i = idx[i].toNat := by
  have hindex := unpackField_toNat (packField idx) ⟨i, hi⟩
  rw [unpackField_packField] at hindex
  rw [fieldAt_eq_toNat h, pack48, fieldOfBytes_fieldBytes]
  exact hindex.symm

/-- Index `i` of the field of a channel in an EncodedBlock. -/
theorem indexOf_fieldAt_compressBlock (x : Vector Byte 64) (c : Fin 2) {i : Nat} (hi : i < 16) :
    indexOf (fieldAt (compressBlock x).toList (8 * c.val + 2)) i = (channelIndices (channelSamples c x))[i].toNat := by
  obtain ⟨_, _, hfield⟩ := compressBlock_getElem x c
  exact indexOf_fieldAt_of_pack48 (fun j hj => by rw [byteAt_toList _ (by omega), hfield j hj]) hi

/-- Every sample of a channel lies between the least and the greatest one, so no index is a sentinel's (R106 (d)). -/
theorem channelIndices_le_five (px : Vector Byte 16) {i : Nat} (hi : i < 16) :
    (channelIndices px)[i].toNat ≤ 5 := by
  obtain ⟨_, hlo⟩ := lowest_spec px
  obtain ⟨_, hhi⟩ := highest_spec px
  rw [channelIndices, quantize_getElem _ _ _ hi]
  exact nearest_le_five (hlo ⟨i, hi⟩) (hhi ⟨i, hi⟩)

/-- Settles O33. -/
theorem compressIndicesUpToFive : Obligations.CompressIndicesUpToFive := by
  refine ⟨fun _ _ _ => nearest_le_five, fun p s hlen => ?_⟩
  obtain ⟨x, rfl⟩ := exists_vector_of_length hlen
  refine ⟨_, answers_of_resultComplete (by decide) (exec_compress x s), fun i hi => ?_⟩
  have hindex (c : Fin 2) : indexOf (fieldAt (compressBlock x).toList (8 * c.val + 2)) i ≤ 5 := by
    rw [indexOf_fieldAt_compressBlock x c hi]
    exact channelIndices_le_five _ hi
  exact ⟨hindex 0, hindex 1⟩

/-! ## QUANT and PACK against COMPRESS -/

theorem indexVectorOf_indexVectorBytes (idx : Vector Index 16) : indexVectorOf (indexVectorBytes idx) = idx := by
  ext i hi : 1
  apply BitVec.eq_of_toNat_eq
  rw [indexVectorOf_getElem _ _ hi, indexVectorBytes_getElem _ _ hi, BitVec.extractLsb'_toNat, Nat.shiftRight_zero,
    indexByte_toNat, Nat.mod_eq_of_lt idx[i].isLt]

/-- PACK of the bytes of an index vector completes with their field (R41, R82). -/
theorem exec_pack_indexVectorBytes (idx : Vector Index 16) (s : State) :
    exec (.pack (indexVectorBytes idx).toList) s = .next (resultComplete (pack48 idx) s) := by
  have hle : ∀ i < 16, byteAt (indexVectorBytes idx).toList i ≤ 7 := by
    intro i hi
    rw [byteAt_indexVectorBytes idx hi]
    exact Nat.le_of_lt_succ idx[i].isLt
  have hresult := packResult_of_le hle
  rw [indexVectorOf_indexVectorBytes] at hresult
  exact runCommand_ok hresult s

theorem getD_toList {n : Nat} (x : Vector Byte n) {i : Nat} (h : i < n) : x.toList.getD i 0 = x[i] := by
  simp [h]

/-- The samples of a channel as the list of every fourth payload byte (R38). -/
theorem channelSamples_toList (c : Fin 2) (x : Vector Byte 64) :
    (channelSamples c x).toList = (List.range 16).map fun i => x.toList.getD (4 * i + c.val) 0 := by
  refine List.ext_getElem (by simp) fun i h _ => ?_
  have hi : i < 16 := by simpa using h
  rw [List.getElem_map, List.getElem_range, getD_toList x (by omega), Vector.getElem_toList,
    channelSamples_getElem c x i hi]

/-- The six bytes of a channel's field, cut from an EncodedBlock (R39). -/
theorem compressBlock_fieldBytes (x : Vector Byte 64) (c : Fin 2) :
    (pack48 (channelIndices (channelSamples c x))).toList =
      ((compressBlock x).toList.drop (8 * c.val + 2)).take 6 := by
  obtain ⟨_, _, hfield⟩ := compressBlock_getElem x c
  refine List.ext_getElem ?_ fun j h _ => ?_
  · simp; omega
  · have hj : j < 6 := by simpa using h
    simp [← hfield j hj]

/-- Settles O43: both ways quantize the channel's samples between the same two bytes and pack the indices. -/
theorem quantThenPackIsCompressChannel : Obligations.QuantThenPackIsCompressChannel := by
  intro p s c hlen hc
  obtain ⟨x, rfl⟩ := exists_vector_of_length hlen
  obtain ⟨c, rfl⟩ : ∃ d : Fin 2, d.val = c := ⟨⟨c, hc⟩, rfl⟩
  obtain ⟨hlo, hhi, _⟩ := compressBlock_getElem x c
  refine ⟨_, _, _, answers_of_resultComplete (by decide) (exec_compress x s), ?_,
    answers_of_resultComplete (by decide) (exec_pack_indexVectorBytes (channelIndices (channelSamples c x)) s),
    compressBlock_fieldBytes x c⟩
  rw [getD_toList _ (by omega), getD_toList _ (by omega), hlo, hhi, ← channelSamples_toList]
  exact answers_of_resultComplete (by decide) (exec_quant _ _ _ s)

end Sys2Proof.Machine

/-! # ComputeNormalZ: the radicand, the range of `B9`, the formula over the reals (O37 to O40)

`XN` is the square of 255 times the scale `255 * DENr * DENg`, less a square that is not larger, plus a positive one
(`normalRadicand_eq`). A bound on `B9` is a comparison of `XN` with the square of a multiple of that scale
(`le_normalZ_iff`), and `B9` is the floor of the document's value since a floor of quotients is a quotient of floors
(`normalZ_eq_floor`). -/

namespace Sys2Proof.Machine

/-- What ComputeNormalZ takes from a palette: an odd denominator up to 7, and a numerator of at most the value 1
(R72, R76). -/
structure EntryOver (den n : Nat) : Prop where
  den_odd : den % 2 = 1
  den_le : den ≤ 7
  le : n ≤ 255 * den

theorem EntryOver.den_pos {den n : Nat} (h : EntryOver den n) : 0 < den := by
  have := h.den_odd
  omega

theorem pal_entryOver (e0 e1 : Byte) (k : Index) : EntryOver (pal e0 e1).den ((pal e0 e1).numerator k) where
  den_odd := by
    obtain h | h := lt_or_ge e1.toNat e0.toNat
    · rw [pal_den_standard h]
    · rw [pal_den_degenerate h]
  den_le := pal_den_le e0 e1
  le := pal_numerator_le e0 e1 k

/-- `A` and `Bq` of R113: twice the numerator, as a distance from the middle of its range. -/
def centred (den n : Nat) : Int := 2 * n - 255 * den

theorem abs_centred_le {den n : Nat} (h : EntryOver den n) : |centred den n| ≤ 255 * den := by
  have := h.le
  rw [centred, abs_le]
  omega

/-- No entry is exactly in the middle: twice the numerator is even, and `255 * den` odd. -/
theorem abs_centred_pos {den n : Nat} (h : EntryOver den n) : 0 < |centred den n| := by
  have := h.den_odd
  rw [centred, abs_pos]
  omega

/-- A centred numerator times the other channel's scale is at most the product of both scales. -/
theorem abs_centred_mul_le {den n : Nat} (h : EntryOver den n) (den' : Nat) :
    |centred den n| * (255 * den') ≤ 255 * (255 * den * den') := by
  calc |centred den n| * (255 * den') ≤ 255 * den * (255 * den') := by gcongr; exact abs_centred_le h
    _ = 255 * (255 * den * den') := by ring

section
variable {denR nr denG ng : Nat}

/-! ## The radicand -/

/-- `XN` as a difference and a sum of squares (R113). -/
theorem normalRadicand_eq (denR nr denG ng : Nat) :
    normalRadicand denR nr denG ng =
      (255 * (255 * denR * denG)) ^ 2 - (|centred denR nr| * (255 * denG)) ^ 2 +
        (|centred denG ng| * (255 * denR)) ^ 2 := by
  simp only [normalRadicand, mul_pow, sq_abs, centred]
  ring

theorem normalScale_pos (hR : EntryOver denR nr) (hG : EntryOver denG ng) : 0 < 255 * denR * denG :=
  Nat.mul_pos (Nat.mul_pos (by decide) hR.den_pos) hG.den_pos

theorem normalRadicand_pos (hR : EntryOver denR nr) (hG : EntryOver denG ng) : 0 < normalRadicand denR nr denG ng := by
  have hred := pow_le_pow_left₀ (by positivity) (abs_centred_mul_le hR denG) 2
  have hgreen : 0 < (|centred denG ng| * (255 * denR)) ^ 2 := by
    have := abs_centred_pos hG
    have := hR.den_pos
    positivity
  rw [normalRadicand_eq]
  linarith

theorem normalRadicand_le (hG : EntryOver denG ng) :
    normalRadicand denR nr denG ng ≤ 2 * (255 * (255 * denR * denG)) ^ 2 := by
  have hred := sq_nonneg (|centred denR nr| * (255 * denG))
  have hgreen := pow_le_pow_left₀ (by positivity) (abs_centred_mul_le hG denR) 2
  rw [mul_right_comm 255] at hgreen
  rw [normalRadicand_eq]
  linarith

/-- The largest scale is `255 * 7 * 7`. -/
theorem normalRadicand_lt (hR : EntryOver denR nr) (hG : EntryOver denG ng) :
    normalRadicand denR nr denG ng < 2 ^ 45 := by
  have hdenR : (denR : Int) ≤ 7 := mod_cast hR.den_le
  have hdenG : (denG : Int) ≤ 7 := mod_cast hG.den_le
  calc normalRadicand denR nr denG ng ≤ 2 * (255 * (255 * denR * denG)) ^ 2 := normalRadicand_le hG
    _ ≤ 2 * (255 * (255 * 7 * 7)) ^ 2 := by gcongr
    _ < 2 ^ 45 := by norm_num

/-! ## The range of `B9` -/

/-- `B9` reaches `t` exactly if the radicand reaches the square of `2 * t - 255` scales (R112, R113). -/
theorem le_normalZ_iff (hR : EntryOver denR nr) (hG : EntryOver denG ng) (t : Nat) :
    t ≤ normalZ denR nr denG ng ↔
      (((2 * t - 255 : Nat) : Int) * (255 * denR * denG)) ^ 2 ≤ normalRadicand denR nr denG ng := by
  rw [normalZ, Nat.le_div_iff_mul_le two_pos, ← Nat.sub_le_iff_le_add',
    Nat.le_div_iff_mul_le (normalScale_pos hR hG), isqrt_eq_sqrt, Nat.le_sqrt',
    Int.le_toNat (normalRadicand_pos hR hG).le, mul_comm t 2]
  push_cast
  rfl

theorem le_normalZ (denR nr denG ng : Nat) : 127 ≤ normalZ denR nr denG ng := by
  rw [normalZ, Nat.le_div_iff_mul_le two_pos]
  exact Nat.le_add_right_of_le (by norm_num)

/-- `B9` stays below a `t` whose `2 * t - 255` scales are above the root. -/
theorem normalZ_lt_of_radicand_le (hR : EntryOver denR nr) (hG : EntryOver denG ng) {t : Nat} {c : Int}
    (hc : c < ((2 * t - 255 : Nat) : Int) ^ 2) (h : normalRadicand denR nr denG ng ≤ c * (255 * denR * denG) ^ 2) :
    normalZ denR nr denG ng < t := by
  have hscale : (0 : Int) < 255 * denR * denG := mod_cast normalScale_pos hR hG
  rw [← not_le, le_normalZ_iff hR hG, not_le, mul_pow]
  exact h.trans_lt (mul_lt_mul_of_pos_right hc (pow_pos hscale 2))

/-- The root of the greatest radicand is `√2 * 255 < 361` scales. -/
theorem normalZ_le (hR : EntryOver denR nr) (hG : EntryOver denG ng) : normalZ denR nr denG ng ≤ 307 := by
  have hradicand := normalRadicand_le (denR := denR) (nr := nr) hG
  rw [mul_pow, ← mul_assoc] at hradicand
  exact Nat.le_of_lt_succ (normalZ_lt_of_radicand_le hR hG (by norm_num) hradicand)

theorem normalZ_le_of_abs_le (hR : EntryOver denR nr) (hG : EntryOver denG ng)
    (h : |centred denG ng| * (255 * denR) ≤ |centred denR nr| * (255 * denG)) : normalZ denR nr denG ng ≤ 255 := by
  have hsq := pow_le_pow_left₀ (by positivity) h 2
  have hradicand : normalRadicand denR nr denG ng ≤ 255 ^ 2 * (255 * denR * denG) ^ 2 := by
    rw [normalRadicand_eq, mul_pow 255]
    linarith
  exact Nat.le_of_lt_succ (normalZ_lt_of_radicand_le hR hG (by norm_num) hradicand)

theorem normalZ_of_abs_eq (hR : EntryOver denR nr) (hG : EntryOver denG ng)
    (h : |centred denG ng| * (255 * denR) = |centred denR nr| * (255 * denG)) : normalZ denR nr denG ng = 255 := by
  refine le_antisymm (normalZ_le_of_abs_le hR hG h.le) ?_
  rw [le_normalZ_iff hR hG, normalRadicand_eq, h, sub_add_cancel]
  exact le_rfl

/-! ## The formula over the reals -/

/-- `B9` as a floor: that of the root of `XN` over the scale, raised by 255 and halved (R113). -/
theorem normalZ_eq_floor (hR : EntryOver denR nr) (hG : EntryOver denG ng) :
    (normalZ denR nr denG ng : ℤ) =
      ⌊(255 + √(normalRadicand denR nr denG ng : ℝ) / (255 * denR * denG : ℕ)) / (2 : ℕ)⌋ := by
  have hcast : ((normalRadicand denR nr denG ng).toNat : ℝ) = normalRadicand denR nr denG ng :=
    mod_cast congrArg (Int.cast : ℤ → ℝ) (Int.toNat_of_nonneg (normalRadicand_pos hR hG).le)
  rw [Int.floor_div_natCast, Int.floor_ofNat_add, Int.floor_div_natCast, ← hcast, Real.floor_real_sqrt_eq_nat_sqrt,
    normalZ, isqrt_eq_sqrt]
  push_cast
  rfl

/-- The radicand of R112 for the values `nr / (255 * denR)` and `ng / (255 * denG)`. -/
noncomputable def realRadicand (denR nr denG ng : Nat) : ℝ :=
  1 - (2 * ((nr : ℝ) / (255 * denR)) - 1) ^ 2 + (2 * ((ng : ℝ) / (255 * denG)) - 1) ^ 2

/-- It is `XN` over the square of 255 scales (R113). -/
theorem realRadicand_eq (hR : EntryOver denR nr) (hG : EntryOver denG ng) :
    realRadicand denR nr denG ng = normalRadicand denR nr denG ng / (255 * (255 * denR * denG)) ^ 2 := by
  have := hR.den_pos
  have := hG.den_pos
  simp only [realRadicand, normalRadicand]
  push_cast
  field_simp

theorem realRadicand_nonneg (hR : EntryOver denR nr) (hG : EntryOver denG ng) : 0 ≤ realRadicand denR nr denG ng := by
  have : (0 : ℝ) < normalRadicand denR nr denG ng := mod_cast normalRadicand_pos hR hG
  rw [realRadicand_eq hR hG]
  positivity

/-- The floor of R112 is `B9`: the square of 255 scales comes out of the root. -/
theorem floor_realNormal (hR : EntryOver denR nr) (hG : EntryOver denG ng) :
    ⌊255 * (√(realRadicand denR nr denG ng) / 2 + 1 / 2)⌋ = (normalZ denR nr denG ng : ℤ) := by
  have hscale : (0 : ℝ) < 255 * denR * denG := mod_cast normalScale_pos hR hG
  rw [normalZ_eq_floor hR hG, realRadicand_eq hR hG, Real.sqrt_div' _ (sq_nonneg _), Real.sqrt_sq (by positivity)]
  congr 1
  push_cast
  field_simp
  ring

end

/-- The blue byte for a `B9` that fits it (R112). -/
theorem normalBlue_toNat {b9 : Nat} (h : b9 ≤ 255) (blueSel : Nat) : (normalBlue blueSel b9).toNat = b9 := by
  rw [normalBlue, if_pos h, BitVec.toNat_ofNat, Nat.mod_eq_of_lt (by omega)]

/-- The blue byte for a `B9` above it (R114). -/
theorem normalBlue_of_gt {b9 : Nat} (h : 255 < b9) (blueSel : Nat) :
    normalBlue blueSel b9 = Config.blueOvf blueSel b9 := by
  rw [normalBlue, if_neg h.not_ge]

/-! ## The statements -/

/-- Settles O37. -/
theorem normalZIsTheRealFormula : Obligations.NormalZIsTheRealFormula := by
  intro blueSel r0 r1 g0 g1 ri gi r g x b9 blue
  have hR := pal_entryOver r0 r1 ri
  have hG := pal_entryOver g0 g1 gi
  have hb9 : b9 = _ := floor_realNormal hR hG
  rw [hb9]
  exact ⟨realRadicand_nonneg hR hG, fun hle => congrArg Nat.cast (normalBlue_toNat (mod_cast hle) blueSel),
    fun hlt => normalBlue_of_gt (mod_cast hlt) blueSel⟩

/-- Settles O38. -/
theorem normalZRange : Obligations.NormalZRange := fun r0 r1 g0 g1 ri gi =>
  ⟨le_normalZ _ _ _ _, normalZ_le (pal_entryOver r0 r1 ri) (pal_entryOver g0 g1 gi)⟩

/-- Settles O39: where the squares cancel, the root is exactly 255 scales. -/
theorem normalZNoOverflow : Obligations.NormalZNoOverflow := fun r0 r1 g0 g1 ri gi =>
  ⟨normalZ_le_of_abs_le (pal_entryOver r0 r1 ri) (pal_entryOver g0 g1 gi),
    normalZ_of_abs_eq (pal_entryOver r0 r1 ri) (pal_entryOver g0 g1 gi)⟩

/-- Settles O40. -/
theorem normalRadicandBounds : Obligations.NormalRadicandBounds := fun r0 r1 g0 g1 ri gi =>
  ⟨normalRadicand_pos (pal_entryOver r0 r1 ri) (pal_entryOver g0 g1 gi),
    normalRadicand_lt (pal_entryOver r0 r1 ri) (pal_entryOver g0 g1 gi)⟩

end Sys2Proof.Machine

/-! # The block codec: COMPRESS, DECOMPRESS, and one after the other (O34 to O36, O41, O42)

A channel of DECOMPRESS is its palette at its indices (`channelSamples_decompressBlock`). After COMPRESS these are the
nearest indices between the least and the greatest sample, so each sample comes back as the entry nearest to it
(`restored`): the two endpoints themselves, anything else within half a step of the palette. -/

namespace Sys2Proof.Machine

open Sys2Proof.Claims

/-! ## COMPRESS -/

/-- A sample of a pixel block where it stands on the payload (R38). -/
theorem byteAt_channel (x : Vector Byte 64) (c : Fin 2) {i : Nat} (hi : i < 16) :
    byteAt x.toList (4 * i + c.val) = (channelSamples c x)[i].toNat := by
  rw [byteAt_toList _ (by omega), channelSamples_getElem c x i hi]

/-- The two reference bytes of a channel of an EncodedBlock (R102, R103). -/
theorem byteAt_references (x : Vector Byte 64) (c : Fin 2) :
    byteAt (compressBlock x).toList (8 * c.val) = (lowest (channelSamples c x)).toNat ∧
    byteAt (compressBlock x).toList (8 * c.val + 1) = (highest (channelSamples c x)).toNat := by
  obtain ⟨hlo, hhi, _⟩ := compressBlock_getElem x c
  rw [byteAt_toList _ (by omega), byteAt_toList _ (by omega), hlo, hhi]
  exact ⟨rfl, rfl⟩

/-- A channel of an EncodedBlock as the statements ask for it (R102 to R105). -/
theorem compressBlock_encodesChannel (x : Vector Byte 64) (c : Fin 2) :
    EncodesChannel x.toList (compressBlock x).toList c.val := by
  obtain ⟨hlo, hhi⟩ := byteAt_references x c
  obtain ⟨⟨i, hi⟩, hleast⟩ := lowest_spec (channelSamples c x)
  obtain ⟨⟨j, hj⟩, hgreatest⟩ := highest_spec (channelSamples c x)
  rw [EncodesChannel, hlo, hhi]
  refine ⟨⟨i, i.isLt, ?_⟩, ⟨j, j.isLt, ?_⟩, fun k hk => ?_, fun k hk => ?_⟩
  · rw [byteAt_channel x c i.isLt, hi]; rfl
  · rw [byteAt_channel x c j.isLt, hj]; rfl
  · rw [byteAt_channel x c hk]
    exact ⟨hleast ⟨k, hk⟩, hgreatest ⟨k, hk⟩⟩
  · rw [byteAt_channel x c hk, indexOf_fieldAt_compressBlock x c hk, channelIndices, quantize_getElem _ _ _ hk]
    exact nearest_isNearest _ _ _

/-- Settles O34. -/
theorem compressGivesEncodedBlock : Obligations.CompressGivesEncodedBlock := by
  refine ⟨?_, illegalUnless_of_legal (by decide), fun p s hlen => ?_⟩
  · exact commandFrame_of_select (fun _ => compressResult) (fun lo p => select_eq 5 lo p) fun _ _ => rfl
  · obtain ⟨x, rfl⟩ := exists_vector_of_length hlen
    exact ⟨_, answers_of_resultComplete (by decide) (exec_compress x s), Vector.length_toList,
      compressBlock_encodesChannel x 0, compressBlock_encodesChannel x 1⟩

/-- The EncodedBlock is made of the samples of the two channels and nothing else (R38). -/
theorem compressBlock_congr {x y : Vector Byte 64} (h : ∀ c, channelSamples c x = channelSamples c y) :
    compressBlock x = compressBlock y := by
  rw [compressBlock, compressBlock, h 0, h 1]

/-- Settles O35: the payloads have the same samples in both channels. -/
theorem compressIgnoresBlueAndAlpha : Obligations.CompressIgnoresBlueAndAlpha := by
  intro p q s hp hq h
  obtain ⟨x, rfl⟩ := exists_vector_of_length hp
  obtain ⟨y, rfl⟩ := exists_vector_of_length hq
  have hsamples (c : Fin 2) : channelSamples c x = channelSamples c y := by
    ext i hi : 1
    obtain ⟨hred, hgreen⟩ := h i hi
    apply BitVec.eq_of_toNat_eq
    rw [← byteAt_channel x c hi, ← byteAt_channel y c hi]
    match c with
    | 0 => exact hred
    | 1 => exact hgreen
  rw [exec_compress, exec_compress, compressBlock_congr hsamples]

/-! ## DECOMPRESS -/

/-- The palette of a channel of an EncodedBlock (R108). -/
def blockPalette (x : Vector Byte 16) (c : Fin 2) : Palette := pal x[8 * c.val] x[8 * c.val + 1]

/-- The indices of a channel of an EncodedBlock (R109). -/
def blockIndices (x : Vector Byte 16) (c : Fin 2) : Vector Index 16 :=
  unpack48 (blockField x (8 * c.val + 2) (by omega))

/-- The pixel block of an EncodedBlock (R107). -/
def decompressBlock (mode : BlueMode) (blueSel : Nat) (x : Vector Byte 16) : Vector Byte 64 :=
  pixelBlockBytes (decodedPixels mode blueSel (blockPalette x 0) (blockPalette x 1) (blockIndices x 0)
    (blockIndices x 1))

/-- The command of each blue mode (R54). -/
def decompressOf : BlueMode → List Byte → Instr
  | .alwaysZero => .decompressZ
  | .alwaysOne => .decompressO
  | .computeNormalZ => .decompressN
  | .copyRed => .decompressR

/-- The command of a blue mode runs that mode on its payload, with the core's `BLUE_OVF` (R107, R111). -/
theorem exec_decompressOf (mode : BlueMode) (p : List Byte) (s : State) :
    exec (decompressOf mode p) s = runCommand (decompressResult mode s.blueSel) p s := by
  cases mode <;> rfl

theorem decompressResult_eq (mode : BlueMode) (blueSel : Nat) (x : Vector Byte 16) :
    decompressResult mode blueSel x = .ok (decompressBlock mode blueSel x) := rfl

theorem answers_decompressOf (mode : BlueMode) (x : Vector Byte 16) (s : State) :
    Answers (decompressOf mode x.toList) s (decompressBlock mode s.blueSel x).toList :=
  answers_of_resultComplete (by decide)
    ((exec_decompressOf mode _ s).trans (runCommand_ok (decompressResult_eq mode s.blueSel x) s))

/-- The four commands of the statements are those of the four blue modes. -/
theorem exists_decompressOf {mk : List Byte → Instr}
    (h : mk ∈ [Instr.decompressZ, Instr.decompressO, Instr.decompressN, Instr.decompressR]) :
    ∃ mode, mk = decompressOf mode := by
  simp only [List.mem_cons, List.not_mem_nil, or_false] at h
  obtain rfl | rfl | rfl | rfl := h
  · exact ⟨.alwaysZero, rfl⟩
  · exact ⟨.alwaysOne, rfl⟩
  · exact ⟨.computeNormalZ, rfl⟩
  · exact ⟨.copyRed, rfl⟩

/-- The four bytes of pixel `i` (R110, R111, R115). -/
theorem decompressBlock_getElem (mode : BlueMode) (blueSel : Nat) (x : Vector Byte 16) {i : Nat} (hi : i < 16) :
    (decompressBlock mode blueSel x)[4 * i] = (blockPalette x 0).byte (blockIndices x 0)[i] ∧
    (decompressBlock mode blueSel x)[4 * i + 1] = (blockPalette x 1).byte (blockIndices x 1)[i] ∧
    (decompressBlock mode blueSel x)[4 * i + 2] =
      blueByte mode blueSel (blockPalette x 0) (blockPalette x 1) (blockIndices x 0)[i] (blockIndices x 1)[i] ∧
    (decompressBlock mode blueSel x)[4 * i + 3] = 1 := by
  have hpixel := pixelBlockBytes_getElem (decodedPixels mode blueSel (blockPalette x 0) (blockPalette x 1)
    (blockIndices x 0) (blockIndices x 1)) i hi
  rwa [decodedPixels_getElem _ _ _ _ _ _ i hi] at hpixel

/-- The samples of a channel of the pixel block: the palette's bytes that the indices select (R110). -/
theorem channelSamples_decompressBlock (mode : BlueMode) (blueSel : Nat) (x : Vector Byte 16) (c : Fin 2)
    {i : Nat} (hi : i < 16) :
    (channelSamples c (decompressBlock mode blueSel x))[i] = (blockPalette x c).byte (blockIndices x c)[i] := by
  obtain ⟨hred, hgreen, _⟩ := decompressBlock_getElem mode blueSel x hi
  rw [channelSamples_getElem c _ i hi]
  match c with
  | 0 => exact hred
  | 1 => exact hgreen

theorem blockIndices_toNat (x : Vector Byte 16) (c : Fin 2) {i : Nat} (hi : i < 16) :
    (blockIndices x c)[i].toNat = indexOf (fieldAt x.toList (8 * c.val + 2)) i := by
  have hfield : fieldAt x.toList (8 * c.val + 2) = (fieldOfBytes (blockField x (8 * c.val + 2) (by omega))).toNat :=
    fieldAt_eq_toNat fun j hj => by rw [byteAt_toList _ (by omega), blockField_getElem _ _ _ _ hj]
  rw [hfield]
  exact unpackField_toNat _ ⟨i, hi⟩

/-- The same bytes as numbers, by the formulas on plain numbers. -/
theorem byteAt_decompressBlock (mode : BlueMode) (blueSel : Nat) (x : Vector Byte 16) (c : Fin 2) {i : Nat}
    (hi : i < 16) : byteAt (decompressBlock mode blueSel x).toList (4 * i + c.val) =
      palbOf (byteAt x.toList (8 * c.val)) (byteAt x.toList (8 * c.val + 1))
        (indexOf (fieldAt x.toList (8 * c.val + 2)) i) := by
  rw [byteAt_channel _ c hi, byteAt_toList _ (by omega), byteAt_toList _ (by omega),
    channelSamples_decompressBlock _ _ _ _ hi, blockPalette, pal_byte_toNat, blockIndices_toNat _ _ hi]

theorem decodesRedGreenAlpha_decompressBlock (mode : BlueMode) (blueSel : Nat) (x : Vector Byte 16) :
    DecodesRedGreenAlpha x.toList (decompressBlock mode blueSel x).toList := by
  refine ⟨Vector.length_toList, fun i hi => ?_⟩
  obtain ⟨_, _, _, halpha⟩ := decompressBlock_getElem mode blueSel x hi
  refine ⟨byteAt_decompressBlock _ _ _ 0 hi, byteAt_decompressBlock _ _ _ 1 hi, ?_⟩
  rw [byteAt_toList _ (by omega), halpha]
  rfl

theorem byteAt_blue_decompressBlock (mode : BlueMode) (blueSel : Nat) (x : Vector Byte 16) {i : Nat} (hi : i < 16) :
    byteAt (decompressBlock mode blueSel x).toList (4 * i + 2) =
      (blueByte mode blueSel (blockPalette x 0) (blockPalette x 1) (blockIndices x 0)[i]
        (blockIndices x 1)[i]).toNat := by
  obtain ⟨_, _, hblue, _⟩ := decompressBlock_getElem mode blueSel x hi
  rw [byteAt_toList _ (by omega), hblue]

/-- `B9` of the model is that of the formulas on plain numbers (R113). -/
theorem normalZ_pal (r0 r1 g0 g1 : Byte) (ri gi : Index) :
    normalZ (pal r0 r1).den ((pal r0 r1).numerator ri) (pal g0 g1).den ((pal g0 g1).numerator gi) =
      b9Of r0.toNat r1.toNat ri.toNat g0.toNat g1.toNat gi.toNat := by
  have hradicand : normalRadicand (pal r0 r1).den ((pal r0 r1).numerator ri) (pal g0 g1).den
      ((pal g0 g1).numerator gi) = radicandOf r0.toNat r1.toNat ri.toNat g0.toNat g1.toNat gi.toNat := by
    simp only [normalRadicand, radicandOf, pal_den, pal_numerator]
    ring
  rw [normalZ, isqrt_eq_sqrt, hradicand, pal_den, pal_den, b9Of]

theorem decodesNormalBlue_decompressBlock (blueSel : Nat) (x : Vector Byte 16) :
    DecodesNormalBlue blueSel x.toList (decompressBlock .computeNormalZ blueSel x).toList := by
  intro i hi b9
  have hb9 : b9 = normalZ (blockPalette x 0).den ((blockPalette x 0).numerator (blockIndices x 0)[i])
      (blockPalette x 1).den ((blockPalette x 1).numerator (blockIndices x 1)[i]) := by
    have hindex (c : Fin 2) := blockIndices_toNat x c hi
    rw [blockPalette, blockPalette, normalZ_pal, hindex 0, hindex 1, ← byteAt_toList, ← byteAt_toList,
      ← byteAt_toList, ← byteAt_toList]
    rfl
  obtain ⟨_, _, hblue, _⟩ := decompressBlock_getElem .computeNormalZ blueSel x hi
  rw [byteAt, getD_toList _ (by omega), hblue, hb9]
  exact ⟨fun hle => normalBlue_toNat hle blueSel, fun hlt => normalBlue_of_gt hlt blueSel⟩

theorem commandFrame_decompressOf {hi : Byte} (mode : BlueMode)
    (hsel : ∀ (lo : Byte) (p : List Byte), CmdWord.select (hi ++ lo) p = .ok (decompressOf mode p)) :
    CommandFrame hi (decompressOf mode) 16 :=
  commandFrame_of_select (fun s => decompressResult mode s.blueSel) hsel (exec_decompressOf mode)

/-- Settles O36: what the four modes share is proved for any mode, and blue is `blueByte`'s. -/
theorem decompressGivesPixelBlock : Obligations.DecompressGivesPixelBlock := by
  refine ⟨commandFrame_decompressOf .alwaysZero fun lo p => select_eq 0x06 lo p,
    commandFrame_decompressOf .alwaysOne fun lo p => select_eq 0x0E lo p,
    commandFrame_decompressOf .computeNormalZ fun lo p => select_eq 0x16 lo p,
    commandFrame_decompressOf .copyRed fun lo p => select_eq 0x1E lo p,
    illegalUnless_of_legal (by decide), fun p s hlen => ?_⟩
  obtain ⟨x, rfl⟩ := exists_vector_of_length hlen
  have hpixels (mode : BlueMode) := decodesRedGreenAlpha_decompressBlock mode s.blueSel x
  refine ⟨⟨_, answers_decompressOf .alwaysZero x s, hpixels _, fun i hi => ?_⟩,
    ⟨_, answers_decompressOf .alwaysOne x s, hpixels _, fun i hi => ?_⟩,
    ⟨_, answers_decompressOf .computeNormalZ x s, hpixels _, decodesNormalBlue_decompressBlock s.blueSel x⟩,
    ⟨_, answers_decompressOf .copyRed x s, hpixels _, fun i hi => ?_⟩⟩
  · exact byteAt_blue_decompressBlock .alwaysZero s.blueSel x hi
  · exact byteAt_blue_decompressBlock .alwaysOne s.blueSel x hi
  · obtain ⟨hred, _⟩ := decompressBlock_getElem .copyRed s.blueSel x hi
    rw [byteAt_blue_decompressBlock _ _ _ hi, byteAt_toList _ (by omega), hred, blueByte]

/-! ## COMPRESS, then DECOMPRESS -/

/-- A sample as it comes back through the palette of two reference bytes (R116). -/
def restored (lo hi p : Byte) : Byte := (pal lo hi).byte (nearest (pal lo hi) p)

/-- The samples of a channel after COMPRESS and DECOMPRESS, in any blue mode. -/
theorem channelSamples_roundTrip (mode : BlueMode) (blueSel : Nat) (x : Vector Byte 64) (c : Fin 2) {i : Nat}
    (hi : i < 16) :
    (channelSamples c (decompressBlock mode blueSel (compressBlock x)))[i] =
      restored (lowest (channelSamples c x)) (highest (channelSamples c x)) (channelSamples c x)[i] := by
  obtain ⟨hlo, hhi, hfield⟩ := compressBlock_getElem x c
  have hindices : blockIndices (compressBlock x) c = channelIndices (channelSamples c x) := by
    have hbytes : blockField (compressBlock x) (8 * c.val + 2) (by omega) =
        pack48 (channelIndices (channelSamples c x)) := by
      ext j hj : 1
      rw [blockField_getElem _ _ _ _ hj, hfield j hj]
    rw [blockIndices, hbytes, packUnpackInverse.1]
  rw [channelSamples_decompressBlock _ _ _ _ hi, hindices, blockPalette, hlo, hhi, channelIndices,
    quantize_getElem _ _ _ hi, restored]

/-- A restored sample is `p` itself if an entry of the palette is exactly `p`. -/
theorem restored_of_numerator {lo hi p : Byte} {k : Index}
    (h : (pal lo hi).numerator k = (pal lo hi).den * p.toNat) : restored lo hi p = p := by
  refine pal_byte_of_numerator ?_
  obtain ⟨hle, _⟩ := nearest_spec (pal lo hi) p k
  rw [h, distance, distance] at hle
  omega

theorem restored_lo (lo hi : Byte) : restored lo hi lo = lo := restored_of_numerator (pal_numerator_zero lo hi)

theorem restored_hi (lo hi : Byte) : restored lo hi hi = hi := restored_of_numerator (pal_numerator_one lo hi)

/-- A number up to `d` steps is within half a step of a multiple of the step. -/
theorem exists_multiple_within_half (step : Nat) : ∀ d t : Nat, t ≤ d * step →
    ∃ w ≤ d, 2 * distance t (w * step) ≤ step := by
  intro d
  induction d with
  | zero =>
    intro t ht
    exact ⟨0, le_rfl, by rw [distance]; omega⟩
  | succ d ih =>
    intro t ht
    by_cases hbelow : t ≤ d * step
    · obtain ⟨w, hw, hdist⟩ := ih t hbelow
      exact ⟨w, Nat.le_succ_of_le hw, hdist⟩
    · rw [Nat.succ_mul d step] at ht
      by_cases hhalf : 2 * (t - d * step) ≤ step
      · exact ⟨d, Nat.le_succ d, by rw [distance]; omega⟩
      · exact ⟨d + 1, le_rfl, by rw [distance, Nat.succ_mul d step]; omega⟩

/-- The interpolated entries of the degenerate branch are `lo` and up to five steps of `hi - lo` (R74). -/
theorem pal_numerator_steps {lo hi : Byte} (h : lo.toNat ≤ hi.toNat) {k : Index} (hk : k.toNat < 6) :
    (pal lo hi).numerator k = 5 * lo.toNat + endpointWeight 5 k * (hi.toNat - lo.toNat) := by
  have hw := endpointWeight_le_den (e0 := lo) (e1 := hi) (.inr hk)
  obtain ⟨gap, hgap⟩ := Nat.exists_eq_add_of_le h
  rw [pal_numerator_weighted (.inr hk)]
  rw [pal_den_degenerate h] at hw ⊢
  rw [hgap, Nat.add_sub_cancel_left, Nat.mul_add, ← Nat.add_assoc, ← Nat.add_mul, Nat.sub_add_cancel hw]

theorem exists_endpointWeight_eq : ∀ w ≤ 5, ∃ k : Index, k.toNat < 6 ∧ endpointWeight 5 k = w := by
  decide

section
variable {lo hi p : Byte} (hlo : lo.toNat ≤ p.toNat) (hhi : p.toNat ≤ hi.toNat)
include hlo hhi

/-- Between the endpoints the nearest entry is within half a step of the palette (R116). -/
theorem nearest_within_half_step :
    2 * distance (5 * p.toNat) ((pal lo hi).numerator (nearest (pal lo hi) p)) ≤ hi.toNat - lo.toNat := by
  have hle := hlo.trans hhi
  obtain ⟨w, hw, hdist⟩ := exists_multiple_within_half (hi.toNat - lo.toNat) 5 (5 * (p.toNat - lo.toNat)) (by omega)
  obtain ⟨k, hk, rfl⟩ := exists_endpointWeight_eq w hw
  obtain ⟨hnearest, _⟩ := nearest_spec (pal lo hi) p k
  rw [pal_den_degenerate hle, pal_numerator_steps hle hk] at hnearest
  simp only [distance] at hnearest hdist ⊢
  omega

/-- The restored sample is the floor of the nearest entry, over the denominator. -/
theorem restored_toNat :
    (restored lo hi p).toNat = (pal lo hi).numerator (nearest (pal lo hi) p) / 5 := by
  rw [restored, pal_byte_toNat_eq_div, pal_den_degenerate (hlo.trans hhi)]

theorem restored_between : lo.toNat ≤ (restored lo hi p).toNat ∧ (restored lo hi p).toNat ≤ hi.toNat := by
  have hle := hlo.trans hhi
  have hindex : (nearest (pal lo hi) p).toNat < 6 := Nat.lt_succ_of_le (nearest_le_five hlo hhi)
  obtain ⟨_, _, hbounds⟩ := paletteNumeratorsBounded lo hi (nearest (pal lo hi) p)
  obtain ⟨hleast, hgreatest⟩ := hbounds (.inr hindex)
  rw [pal_den_degenerate hle] at hleast hgreatest
  rw [restored_toNat hlo hhi]
  omega

/-- Half a step for the entry, and less than one for its floor (R116). -/
theorem restored_error :
    10 * |(p.toNat : Int) - (restored lo hi p).toNat| < (hi.toNat - lo.toNat : Int) + 10 := by
  have hhalf := nearest_within_half_step hlo hhi
  rw [restored_toNat hlo hhi, ← distance_eq_abs]
  rw [distance] at hhalf ⊢
  omega

end

/-- Settles O41: each sample lies between the reference bytes of its channel, and comes back restored. -/
theorem roundTripWithinBound : Obligations.RoundTripWithinBound := by
  intro p s mk hlen hmk
  obtain ⟨x, rfl⟩ := exists_vector_of_length hlen
  obtain ⟨mode, rfl⟩ := exists_decompressOf hmk
  refine ⟨_, _, answers_of_resultComplete (by decide) (exec_compress x s), answers_decompressOf mode _ s,
    fun c hc i hi => ?_⟩
  obtain ⟨c, rfl⟩ : ∃ d : Fin 2, d.val = c := ⟨⟨c, hc⟩, rfl⟩
  obtain ⟨_, hleast⟩ := lowest_spec (channelSamples c x)
  obtain ⟨_, hgreatest⟩ := highest_spec (channelSamples c x)
  obtain ⟨hlo, hhi⟩ := byteAt_references x c
  rw [hlo, hhi, byteAt_channel x c hi, byteAt_channel _ c hi, channelSamples_roundTrip mode s.blueSel x c hi]
  obtain ⟨hbelow, habove⟩ := restored_between (hleast ⟨i, hi⟩) (hgreatest ⟨i, hi⟩)
  refine ⟨hbelow, habove, restored_error (hleast ⟨i, hi⟩) (hgreatest ⟨i, hi⟩), ?_⟩
  rintro (heq | heq)
  · rw [BitVec.eq_of_toNat_eq heq, restored_lo]
  · rw [BitVec.eq_of_toNat_eq heq, restored_hi]

/-! ## COMPRESS of a decompressed block -/

theorem lowest_eq {px : Vector Byte 16} {b : Byte} {i : Nat} (hi : i < 16) (hb : px[i] = b)
    (h : ∀ k, (hk : k < 16) → b.toNat ≤ px[k].toNat) : lowest px = b := by
  obtain ⟨⟨j, hj⟩, hle⟩ := lowest_spec px
  apply BitVec.eq_of_toNat_eq
  refine le_antisymm (hb ▸ hle ⟨i, hi⟩) ?_
  rw [hj]
  exact h j j.isLt

theorem highest_eq {px : Vector Byte 16} {b : Byte} {i : Nat} (hi : i < 16) (hb : px[i] = b)
    (h : ∀ k, (hk : k < 16) → px[k].toNat ≤ b.toNat) : highest px = b := by
  obtain ⟨⟨j, hj⟩, hle⟩ := highest_spec px
  apply BitVec.eq_of_toNat_eq
  refine le_antisymm ?_ (hb ▸ hle ⟨i, hi⟩)
  rw [hj]
  exact h j j.isLt

/-- Restored samples have the same least and the same greatest value: these two come back exactly, and the others
stay between them (R116 (d)). -/
theorem lowest_highest_of_restored {px qx : Vector Byte 16}
    (h : ∀ i, (hi : i < 16) → qx[i] = restored (lowest px) (highest px) px[i]) :
    lowest qx = lowest px ∧ highest qx = highest px := by
  obtain ⟨⟨i, hi⟩, hleast⟩ := lowest_spec px
  obtain ⟨⟨j, hj⟩, hgreatest⟩ := highest_spec px
  have hbetween (k : Nat) (hk : k < 16) := restored_between (hleast ⟨k, hk⟩) (hgreatest ⟨k, hk⟩)
  refine ⟨lowest_eq i.isLt ?_ fun k hk => ?_, highest_eq j.isLt ?_ fun k hk => ?_⟩
  · rw [h i i.isLt, ← Fin.getElem_fin, ← hi, restored_lo]
  · rw [h k hk]
    exact (hbetween k hk).1
  · rw [h j j.isLt, ← Fin.getElem_fin, ← hj, restored_hi]
  · rw [h k hk]
    exact (hbetween k hk).2

/-- The reference bytes of a channel after COMPRESS, DECOMPRESS and COMPRESS are those after COMPRESS. -/
theorem recompressed_references (mode : BlueMode) (blueSel : Nat) (x : Vector Byte 64) (c : Fin 2) :
    let q := decompressBlock mode blueSel (compressBlock x)
    byteAt (compressBlock q).toList (8 * c.val) = byteAt (compressBlock x).toList (8 * c.val) ∧
    byteAt (compressBlock q).toList (8 * c.val + 1) = byteAt (compressBlock x).toList (8 * c.val + 1) := by
  intro q
  obtain ⟨hlo, hhi⟩ := byteAt_references x c
  obtain ⟨hlo', hhi'⟩ := byteAt_references q c
  obtain ⟨hlowest, hhighest⟩ := lowest_highest_of_restored fun _ => channelSamples_roundTrip mode blueSel x c
  rw [hlo, hhi, hlo', hhi', hlowest, hhighest]
  exact ⟨rfl, rfl⟩

/-- Settles O42. -/
theorem recompressionKeepsReferences : Obligations.RecompressionKeepsReferences := by
  intro p s mk hlen hmk
  obtain ⟨x, rfl⟩ := exists_vector_of_length hlen
  obtain ⟨mode, rfl⟩ := exists_decompressOf hmk
  refine ⟨_, _, _, answers_of_resultComplete (by decide) (exec_compress x s), answers_decompressOf mode _ s,
    answers_of_resultComplete (by decide) (exec_compress _ s), ?_⟩
  obtain ⟨h0, h1⟩ := recompressed_references mode s.blueSel x 0
  obtain ⟨h8, h9⟩ := recompressed_references mode s.blueSel x 1
  simp only [List.forall_mem_cons, List.not_mem_nil, false_imp_iff, implies_true, and_true]
  exact ⟨h0, h1, h8, h9⟩

end Sys2Proof.Machine

/-! # Exceptions: when each error is raised, error completion, completion; several cores (O10, O12 to O14, O44)

How a command ends is decided by its length and its payload: `exec_of_wrong_length`, then PACK's
`pack_raises_indexRange`, then `exec_of_right_length`. A schedule is taken apart core by core
(`runSchedule_eq_next_iff`). -/

namespace Sys2Proof.Machine

open Sys2Proof.Claims

/-! ## Completion -/

/-- Settles O14: both ways a command ends write the result registers only, and leave them consistent. -/
theorem everyCommandCompletes : Obligations.EveryCommandCompletes := by
  intro i s
  obtain ⟨e, h⟩ | ⟨_, r, hm, h⟩ := exec_cases i s
  · exact ⟨_, h, rfl, raiseError_consistent e s⟩
  · exact ⟨_, h, rfl, resultComplete_consistent r hm s⟩

/-! ## The length check -/

/-- The required length of each command's payload (R53, R121). -/
def payloadLen : Instr → Nat
  | .palgen _ => 2
  | .pack _ => 16
  | .unpack _ => 6
  | .quant _ => 18
  | .compress _ => 64
  | .decompressZ _ => 16
  | .decompressO _ => 16
  | .decompressN _ => 16
  | .decompressR _ => 16

/-- Every command checks its length before anything else (R121, R126). -/
theorem exec_of_wrong_length {i : Instr} (h : i.payload.length ≠ payloadLen i) (s : State) :
    exec i s = .next (raiseError .invalidLength s) := by
  cases i with
  | palgen => exact runCommand_invalidLength palgenResult h s
  | pack => exact runCommand_invalidLength packResult h s
  | unpack => exact runCommand_invalidLength unpackResult h s
  | quant => exact runCommand_invalidLength quantResult h s
  | compress => exact runCommand_invalidLength compressResult h s
  | decompressZ | decompressO | decompressN | decompressR =>
    exact runCommand_invalidLength (decompressResult _ s.blueSel) h s

theorem raises_of_wrong_length {i : Instr} (h : i.payload.length ≠ payloadLen i) (s : State) : Raises i s 1 :=
  raises_of_raiseError (e := .invalidLength) (exec_of_wrong_length h s)

/-- Settles O10. -/
theorem wrongLengthRaisesInvalidLength : Obligations.WrongLengthRaisesInvalidLength := fun p s =>
  ⟨fun h => raises_of_wrong_length (i := .palgen p) h s, fun h => raises_of_wrong_length (i := .pack p) h s,
    fun h => raises_of_wrong_length (i := .unpack p) h s, fun h => raises_of_wrong_length (i := .quant p) h s,
    fun h => raises_of_wrong_length (i := .compress p) h s, fun h => raises_of_wrong_length (i := .decompressZ p) h s,
    fun h => raises_of_wrong_length (i := .decompressO p) h s,
    fun h => raises_of_wrong_length (i := .decompressN p) h s,
    fun h => raises_of_wrong_length (i := .decompressR p) h s⟩

/-! ## The order of the errors -/

/-- `STATUS` after an error is the error's code (R127). -/
theorem hostReadStatus_raiseError (e : Err) (s : State) :
    hostReadStatus (raiseError e s) = (0 : BitVec 5) ++ e.code := rfl

/-- `STATUS` after a result is 0 (R32, R120). -/
theorem hostReadStatus_resultComplete {m : Nat} (r : Vector Byte m) (s : State) :
    hostReadStatus (resultComplete r s) = 0 := by
  simp [hostReadStatus, Status.word, okCode]

/-- A command whose function finds no error in a payload of the required length succeeds on it. -/
theorem runCommand_status_zero {n m : Nat} (f : Vector Byte n → Except Err (Vector Byte m)) {p : List Byte}
    (hlen : p.length = n) (hf : ∀ x : Vector Byte n, x.toList = p → ∃ r, f x = .ok r) (s : State) :
    ∃ t, runCommand f p s = .next t ∧ hostReadStatus t = 0 := by
  obtain ⟨x, rfl⟩ := exists_vector_of_length hlen
  obtain ⟨r, hr⟩ := hf x rfl
  exact ⟨_, runCommand_ok hr s, hostReadStatus_resultComplete r s⟩

/-- A command with a payload of the required length succeeds, if it is not PACK of a byte above 7 (R84, R123). -/
theorem exec_of_right_length {i : Instr} (hlen : i.payload.length = payloadLen i)
    (hidx : ∀ p, i = .pack p → ∀ k < 16, byteAt p k ≤ 7) (s : State) :
    ∃ t, exec i s = .next t ∧ hostReadStatus t = 0 := by
  cases i with
  | palgen => exact runCommand_status_zero palgenResult hlen (fun _ _ => ⟨_, rfl⟩) s
  | pack p =>
    refine runCommand_status_zero packResult hlen (fun x hx => ⟨_, packResult_of_le ?_⟩) s
    exact hx ▸ hidx p rfl
  | unpack => exact runCommand_status_zero unpackResult hlen (fun _ _ => ⟨_, rfl⟩) s
  | quant => exact runCommand_status_zero quantResult hlen (fun _ _ => ⟨_, rfl⟩) s
  | compress => exact runCommand_status_zero compressResult hlen (fun _ _ => ⟨_, rfl⟩) s
  | decompressZ | decompressO | decompressN | decompressR =>
    exact runCommand_status_zero (decompressResult _ s.blueSel) hlen (fun _ _ => ⟨_, rfl⟩) s

/-- PACK is the command under the first byte 2 (R55). -/
theorem firstByte_eq_two_iff (i : Instr) : (firstByte i).toNat = 2 ↔ ∃ p, i = .pack p := by
  cases i <;> simp [firstByte]

/-- `STATUS` after a command: the length is checked first, then PACK's indices (R126). -/
theorem exec_status (i : Instr) (s : State) : ∃ t, exec i s = .next t ∧ hostReadStatus t =
    if i.payload.length ≠ payloadLen i then 1
    else if (firstByte i).toNat = 2 ∧ ∃ k ∈ List.range 16, 7 < byteAt i.payload k then 3
    else 0 := by
  split_ifs with hlen hidx
  · exact ⟨_, exec_of_wrong_length hlen s, hostReadStatus_raiseError .invalidLength s⟩
  · obtain ⟨hpack, k, hk, hgt⟩ := hidx
    obtain ⟨p, rfl⟩ := (firstByte_eq_two_iff i).1 hpack
    obtain ⟨t, hexec, ⟨hstatus, _⟩, _⟩ :=
      pack_raises_indexRange (not_not.1 hlen) ⟨k, List.mem_range.1 hk, hgt⟩ s
    exact ⟨t, hexec, hstatus⟩
  · refine exec_of_right_length (not_not.1 hlen) (fun p hp k hk => ?_) s
    subst hp
    exact not_lt.1 fun hgt => hidx ⟨rfl, k, List.mem_range.2 hk, hgt⟩

theorem requiredLen_firstByte (i : Instr) : requiredLen (firstByte i).toNat = some (payloadLen i) := by
  cases i <;> rfl

theorem requiredLen_of_not_legal {n : Nat} (h : n ∉ legalFirstBytes) : requiredLen n = none := by
  simp only [legalFirstBytes, List.mem_cons, List.not_mem_nil, or_false, not_or] at h
  simp [requiredLen, h]

/-- A step at a command's frame executes the command (R59). -/
theorem step_of_firstByte {i : Instr} {lo : Byte} {rest : List Byte} {s : State} (hlen : i.payload.length = lo.toNat)
    (hs : s.stream = firstByte i :: lo :: (i.payload ++ rest)) : step s = exec i (consumeFrame rest s) := by
  rw [step_of_decode, hs, decode_frame _ _ _ _ hlen, select_firstByte]

/-- Settles O12: a first byte of R55 gives a command with a required length, any other a reserved word. -/
theorem statusNamesTheFirstError : Obligations.StatusNamesTheFirstError := by
  intro s hi lo p rest hs hp
  by_cases hlegal : hi.toNat ∈ legalFirstBytes
  · obtain ⟨i, rfl, rfl⟩ := exists_firstByte_of_legal hlegal p
    rw [requiredLen_firstByte, step_of_firstByte hp hs, ← hp]
    exact exec_status i (consumeFrame rest s)
  · rw [requiredLen_of_not_legal hlegal]
    exact ⟨_, step_of_not_legal hlegal hp hs, hostReadStatus_raiseError .illegalCommand _⟩

/-! ## Error completion -/

/-- A step that completes has found a whole frame, and leaves what followed it on the stream (R59, R149). -/
theorem frame_of_step {s t : State} (h : step s = .next t) :
    ∃ (hi lo : Byte) (p : List Byte), p.length = lo.toNat ∧ s.stream = hi :: lo :: (p ++ t.stream) := by
  match hs : s.stream with
  | [] | [_] =>
    rw [step_of_decode, hs] at h
    cases h
  | hi :: lo :: tail =>
    obtain hshort | hwhole := Nat.lt_or_ge tail.length lo.toNat
    · rw [step_of_decode, hs, decode_short hi hshort] at h
      cases h
    · have hlen : (tail.take lo.toNat).length = lo.toNat := List.length_take_of_le hwhole
      have hframe : s.stream = hi :: lo :: (tail.take lo.toNat ++ tail.drop lo.toNat) := by
        rw [hs, List.take_append_drop]
      obtain ⟨u, hstep, hu⟩ := step_frame hlen hframe
      cases hstep.symm.trans h
      exact ⟨hi, lo, _, hlen, by rw [hu, List.take_append_drop]⟩

/-- Settles O13: a step that ends with a `STATUS` other than 0 is an error completion. -/
theorem errorCompletionLeavesNoResult : Obligations.ErrorCompletionLeavesNoResult := by
  intro s t h hstatus
  have hframe := frame_of_step h
  obtain ⟨e, _, rfl⟩ | ⟨_, r, _, _, rfl⟩ := step_ends h
  · exact ⟨raiseError_shows e _, rfl, hframe⟩
  · exact absurd (hostReadStatus_resultComplete r _) hstatus

/-! ## Several cores -/

section
variable {n : Nat} {k : Fin n} {p : Platform n}

/-- A schedule goes on from the platform in which its first core has stepped. -/
theorem runSchedule_cons_of_next {t : State} (h : step p[k] = .next t) (ks : List (Fin n)) :
    runSchedule (k :: ks) p = runSchedule ks (p.set k t) := by
  rw [runSchedule, stepAt, h]

/-- A schedule completes only if its first core steps. -/
theorem exists_step_of_runSchedule_cons {ks : List (Fin n)} {q : Platform n}
    (h : runSchedule (k :: ks) p = .next q) : ∃ t, step p[k] = .next t := by
  rw [runSchedule, stepAt] at h
  cases hstep : step p[k] with
  | next t => exact ⟨t, rfl⟩
  | fault | refused =>
    rw [hstep] at h
    cases h

/-- A run of a step or more completes only if the core steps. -/
theorem exists_step_of_run_succ {M : Host.Core} {s t : M.State} {j : Nat} (h : M.run (j + 1) s = .next t) :
    ∃ u, M.step s = .next u := by
  rw [Host.Core.run] at h
  cases hstep : M.step s with
  | next u => exact ⟨u, rfl⟩
  | fault | refused =>
    rw [hstep] at h
    cases h

/-- The schedule's first step changes no core's run alone: the core that took it has one step fewer to go, the others
have as many as before (R132). -/
theorem run_count_cons {t : State} (h : step p[k] = .next t) (ks : List (Fin n)) (j : Fin n) :
    core.run ((k :: ks).count j) p[j] = core.run (ks.count j) (p.set k t)[j] := by
  by_cases hj : k = j
  · subst hj
    simpa using run_succ_of_next (M := core) h (ks.count k)
  · have hval : (k : Nat) ≠ j := fun hv => hj (Fin.ext hv)
    rw [List.count_cons_of_ne hj, Fin.getElem_fin, Fin.getElem_fin, Vector.getElem_set_ne _ _ hval]

end

/-- A schedule completes in exactly the platform whose cores are what their own steps give alone (R132). -/
theorem runSchedule_eq_next_iff {n : Nat} (q : Platform n) : ∀ (ks : List (Fin n)) (p : Platform n),
    runSchedule ks p = .next q ↔ ∀ j : Fin n, core.run (ks.count j) p[j] = .next q[j] := by
  intro ks
  induction ks with
  | nil =>
    intro p
    refine ⟨?_, fun h => ?_⟩
    · rintro ⟨⟩ _
      rfl
    · exact congrArg _ (Vector.ext fun i hi => Host.Outcome.next.inj (h ⟨i, hi⟩))
  | cons k ks ih =>
    intro p
    by_cases hstep : ∃ t, step p[k] = .next t
    · obtain ⟨t, ht⟩ := hstep
      simp only [runSchedule_cons_of_next ht, run_count_cons ht, ih]
    · refine iff_of_false (fun h => hstep (exists_step_of_runSchedule_cons h)) fun h => hstep ?_
      have hk := h k
      rw [List.count_cons_self] at hk
      exact exists_step_of_run_succ (M := core) hk

/-- Settles O44: the states the cores reach alone make up the platform in which the schedule completes. -/
theorem interleavingEqualsRunningAlone : Obligations.InterleavingEqualsRunningAlone := by
  intro n ks p
  refine ⟨fun q => (runSchedule_eq_next_iff q ks p).1, fun h => ?_⟩
  choose t ht using h
  refine ⟨Vector.ofFn t, (runSchedule_eq_next_iff _ ks p).2 fun j => ?_⟩
  rw [ht j]
  exact congrArg _ (Vector.getElem_ofFn j.isLt).symm

end Sys2Proof.Machine

/-! # Waiting for a frame; reset unseen by commands

A step faults only where the stream holds no whole frame, since a whole frame always completes. A step reads of the
state only the stream and `BLUE_OVF`, and reset leaves both. -/

namespace Sys2Proof.Machine

/-! ## Waiting for a frame -/

/-- Without two bytes of command word the core waits (R149). -/
theorem step_of_no_word {s : State} (h : s.stream.length < 2) : step s = .fault .awaitingFrame := by
  rw [step_of_decode]
  match s.stream, h with
  | [], _ | [_], _ => rfl

/-- With fewer than `LEN` bytes after the word the core waits (R149). -/
theorem step_of_short_payload {s : State} {hi lo : Byte} {tail : List Byte} (hs : s.stream = hi :: lo :: tail)
    (h : tail.length < lo.toNat) : step s = .fault .awaitingFrame := by
  rw [step_of_decode, hs, decode_short hi h]

/-- Where the core waits, fewer than `LEN` bytes follow the word: a whole frame completes (R59, R149). -/
theorem short_payload_of_step_fault {s : State} {hi lo : Byte} {tail : List Byte} {e : Fault}
    (hs : s.stream = hi :: lo :: tail) (h : step s = .fault e) : tail.length < lo.toNat := by
  by_contra hwhole
  obtain ⟨t, hnext, _⟩ := frameConsumedWhateverOutcome s hi lo tail hs (Nat.not_lt.1 hwhole)
  cases h.symm.trans hnext

/-- Settles O6: a stream with no word is one of fewer than two bytes, and a word with a whole payload completes. -/
theorem incompleteFrameIsNotIssued : Obligations.IncompleteFrameIsNotIssued := by
  refine fun s => ⟨fun h => ?_, ?_⟩
  · match hs : s.stream with
    | [] | [_] => exact .inl (by simp)
    | hi :: lo :: tail => exact .inr ⟨hi, lo, tail, rfl, short_payload_of_step_fault hs h⟩
  · rintro (hword | ⟨hi, lo, tail, hs, hshort⟩)
    · exact step_of_no_word hword
    · exact step_of_short_payload hs hshort

/-! ## Reset and the commands after it -/

/-- A command ends the same after a reset that leaves the stream: both ways to end overwrite every register that
reset sets (R32, R127, R140). -/
theorem runCommand_hostReset {n m : Nat} (f : Vector Byte n → Except Err (Vector Byte m)) (p : List Byte)
    (s : State) : runCommand f p (hostReset s.stream s) = runCommand f p s := by
  obtain ⟨e, h⟩ | ⟨r, h⟩ := runCommand_ends f p
  all_goals exact (h _).trans (h s).symm

/-- So does every command of the opcode map; DECOMPRESS reads of the state only `BLUE_OVF`, which reset keeps (R19). -/
theorem exec_hostReset (i : Instr) (s : State) : exec i (hostReset s.stream s) = exec i s := by
  cases i with
  | palgen p => exact runCommand_hostReset palgenResult p s
  | pack p => exact runCommand_hostReset packResult p s
  | unpack p => exact runCommand_hostReset unpackResult p s
  | quant p => exact runCommand_hostReset quantResult p s
  | compress p => exact runCommand_hostReset compressResult p s
  | decompressZ p | decompressO p | decompressN p | decompressR p =>
    exact runCommand_hostReset (decompressResult _ s.blueSel) p s

/-- A step is the same after a reset that leaves the stream (R11, R140). -/
theorem step_hostReset (s : State) : step (hostReset s.stream s) = step s := by
  rw [step_of_decode, step_of_decode, hostReset_stream]
  cases decode s.stream with
  | incomplete | illegal => rfl
  | command i rest => exact exec_hostReset i (consumeFrame rest s)

/-- Settles O20: the registers after reset are those of `State.reset`, whatever is pending. -/
theorem resetUnseenByCommands : Obligations.ResetUnseenByCommands := by
  obtain ⟨hstatus, hlen, hout⟩ := resetRegisters
  exact fun s => ⟨step_hostReset s, fun _ => ⟨hstatus, hlen, hout⟩⟩

end Sys2Proof.Machine
